-- ==== Sys2Proof/Word.lean ====
section
/-! DEFINITION. The unsigned word types of the block (00_scope.md R8: every value is unsigned). -/

namespace Sys2Proof

/-- `u8`: one memory cell, one data byte. -/
abbrev Byte := BitVec 8

/-- `u4`: a joypad mask (10_state.md R15). -/
abbrev Nibble := BitVec 4

/-- `u16`: the address operand A and the data operand D of a command (30_encoding.md R43). -/
abbrev U16 := BitVec 16

/-- `u17`: the exclusive end address E of READRANGE (30_encoding.md R45). -/
abbrev U17 := BitVec 17

/-- A 64-bit command word (30_encoding.md R43). -/
abbrev Command := BitVec 64

/-- One pair of BOOT_TABLE: an address and the byte BOOTSTRAP writes there (70_reset_and_hazards.md R84). -/
abbrev BootEntry := U16 × Byte

end Sys2Proof
end

