-- ==== Sys2Proof/Syntax.lean ====
section
/-! DEFINITION. The commands and internal operations of the block: one constructor for each row of
spec/opcode_table.json. -/

namespace Sys2Proof

/-- The five interrupt lines (10_state.md R23, 60_exceptions.md R72), in priority order. -/
inductive Line where
  | vblank | lcdcStat | timer | serial | input
  deriving DecidableEq, Repr

/-- The thirteen commands of 30_encoding.md R46, and the four internal operations of R48, which have no
command word. -/
inductive Instr where
  /-- READ (R52). -/
  | read (addr : U16)
  /-- READ16 (R53). -/
  | read16 (addr : U16)
  /-- READRANGE (R54): `stop` is the exclusive end, 17 bits. -/
  | readrange (start : U16) (stop : U17)
  /-- WRITE (R55): `value` is all of D; the dispatcher truncates it. -/
  | write (addr : U16) (value : U16)
  /-- WRITE2 (R56): `hi` is D[15:8], `lo` is D[7:0]. -/
  | write2 (addr : U16) (hi : Byte) (lo : Byte)
  /-- WRITE16 (R57). -/
  | write16 (addr : U16) (value : U16)
  /-- CHECKINT (R59). -/
  | checkint
  /-- SETINT (R62). -/
  | setint (line : Line)
  /-- PRESSB (R64). -/
  | pressb (mask : Nibble)
  /-- UNPRESSB (R65). -/
  | unpressb (mask : Nibble)
  /-- PRESSD (R64). -/
  | pressd (mask : Nibble)
  /-- UNPRESSD (R65). -/
  | unpressd (mask : Nibble)
  /-- SETIME (R63). -/
  | setime (b : Bool)
  /-- UPDATEJOYP (R66), internal: `s` is the select byte. -/
  | updatejoyp (s : Byte)
  /-- DMA (R68), internal: `v` is the source page. -/
  | dma (v : Byte)
  /-- RAWSTORE (R29), internal. -/
  | rawstore (addr : U16) (b : Byte)
  /-- BOOTSTRAP (R84), internal: `table` is the BOOT_TABLE it applies. -/
  | bootstrap (table : List BootEntry)
  deriving DecidableEq, Repr

end Sys2Proof
end

