-- ==== Sys2Proof/WellFormed.lean ====
section
/-! DEFINITION. Which instructions are well-formed: the operand conditions of the spec that the operand
types do not already enforce. (Line numbers outside 0..4 and field widths are ruled out by the types.) -/

namespace Sys2Proof

/-- Constraints (b), (c) and (d) of 70_reset_and_hazards.md R85 on a BOOT_TABLE: every address in
0xFF00..0xFFFF, none equal to 0xFF00 or 0xFF46, all distinct. Constraint (a), "about 30 entries", gives no
bound and is not tested (log 8). -/
def bootTableOk (table : List BootEntry) : Bool :=
  table.all (fun e => decide (0xFF00 < e.1.toNat ∧ e.1.toNat ≠ 0xFF46)) && decide (table.map (·.1)).Nodup

/-- RAWSTORE takes an address in 0x8000..0xFFFF (20_memory.md R29). -/
def rawStoreOk (addr : U16) : Bool := decide (0x8000 ≤ addr.toNat)

/-- An instruction whose operands meet the spec's conditions. -/
def Instr.wellFormed : Instr → Bool
  | .read _ => true
  | .read16 _ => true
  | .readrange _ _ => true
  | .write _ _ => true
  | .write2 _ _ _ => true
  | .write16 _ _ => true
  | .checkint => true
  | .setint _ => true
  | .pressb _ => true
  | .unpressb _ => true
  | .pressd _ => true
  | .unpressd _ => true
  | .setime _ => true
  | .updatejoyp _ => true
  | .dma _ => true
  | .rawstore addr _ => rawStoreOk addr
  | .bootstrap table => bootTableOk table

end Sys2Proof
end

