-- ==== Sys2Proof/Decode.lean ====
section
/-! DEFINITION. The 64-bit command words (30_encoding.md): their fields, the decoder, the encoder, and the
host's view of a word (`decodeTableWord`). -/

namespace Sys2Proof

/-- OP, `w[63:60]` (R43). -/
def opField (w : Command) : Nibble := w.extractLsb' 60 4

/-- X, `w[59:56]` (R43). -/
def xField (w : Command) : Nibble := w.extractLsb' 56 4

/-- A, `w[55:40]` (R43). -/
def aField (w : Command) : U16 := w.extractLsb' 40 16

/-- E, `w[32:16]` (R43). -/
def eField (w : Command) : U17 := w.extractLsb' 16 17

/-- D, `w[15:0]` (R43). -/
def dField (w : Command) : U16 := w.extractLsb' 0 16

/-- `v[7:0]` (00_scope.md R8). -/
def lo8 (v : U16) : Byte := v.extractLsb' 0 8

/-- `v[15:8]` (R8). -/
def hi8 (v : U16) : Byte := v.extractLsb' 8 8

/-- `hi ++ lo` (R8): the 16-bit value of two bytes. -/
def joinBytes (hi lo : Byte) : U16 := hi ++ lo

/-- Why a word is illegal: the three kinds of R47. -/
inductive Illegal where
  /-- (a): OP is 0x0, 0xE or 0xF. -/
  | reservedOp (op : Nibble)
  /-- (b): a 1 in a bit the row's mask fixes at 0. -/
  | fixedBits (op : Nibble)
  /-- (c): SETINT of a line outside 0..4. -/
  | noSuchLine (x : Nibble)
  deriving DecidableEq, Repr

/-- The line a SETINT word names by `X[2:0]` (R45); 5..7 name no line (R47 c). -/
def lineOfBits (x : BitVec 3) : Option Line :=
  match x with
  | 0#3 => some .vblank
  | 1#3 => some .lcdcStat
  | 2#3 => some .timer
  | 3#3 => some .serial
  | 4#3 => some .input
  | _ => none

/-- The three bits that name a line (R45). -/
def bitsOfLine (l : Line) : BitVec 3 :=
  match l with
  | .vblank => 0#3
  | .lcdcStat => 1#3
  | .timer => 2#3
  | .serial => 3#3
  | .input => 4#3

/-- One row of R46: the word decodes to it when `w & mask == match`. -/
def tableRow (w mask pattern : Command) (i : Instr) : Except Illegal Instr :=
  if w &&& mask = pattern then .ok i else .error (.fixedBits (opField w))

/-- The decoder (R46, R47): total on every 64-bit word. Each row's mask and match are the table's. -/
def decode (w : Command) : Except Illegal Instr :=
  match opField w with
  | 0x1#4 => tableRow w 0xFF0000FFFFFFFFFF#64 0x1000000000000000#64 (.read (aField w))
  | 0x2#4 => tableRow w 0xFF0000FFFFFFFFFF#64 0x2000000000000000#64 (.read16 (aField w))
  | 0x3#4 => tableRow w 0xFF0000FE0000FFFF#64 0x3000000000000000#64 (.readrange (aField w) (eField w))
  | 0x4#4 => tableRow w 0xFF0000FFFFFF0000#64 0x4000000000000000#64 (.write (aField w) (dField w))
  | 0x5#4 => tableRow w 0xFF0000FFFFFF0000#64 0x5000000000000000#64
      (.write2 (aField w) (hi8 (dField w)) (lo8 (dField w)))
  | 0x6#4 => tableRow w 0xFF0000FFFFFF0000#64 0x6000000000000000#64 (.write16 (aField w) (dField w))
  | 0x7#4 => tableRow w 0xFFFFFFFFFFFFFFFF#64 0x7000000000000000#64 .checkint
  | 0x8#4 =>
    match lineOfBits ((xField w).extractLsb' 0 3) with
    | some l => tableRow w 0xF8FFFFFFFFFFFFFF#64 0x8000000000000000#64 (.setint l)
    | none =>
      if w &&& 0xF8FFFFFFFFFFFFFF#64 = 0x8000000000000000#64 then .error (.noSuchLine (xField w))
      else .error (.fixedBits (opField w))
  | 0x9#4 => tableRow w 0xF0FFFFFFFFFFFFFF#64 0x9000000000000000#64 (.pressb (xField w))
  | 0xA#4 => tableRow w 0xF0FFFFFFFFFFFFFF#64 0xA000000000000000#64 (.unpressb (xField w))
  | 0xB#4 => tableRow w 0xF0FFFFFFFFFFFFFF#64 0xB000000000000000#64 (.pressd (xField w))
  | 0xC#4 => tableRow w 0xF0FFFFFFFFFFFFFF#64 0xC000000000000000#64 (.unpressd (xField w))
  | 0xD#4 => tableRow w 0xFEFFFFFFFFFFFFFF#64 0xD000000000000000#64 (.setime ((xField w).getLsbD 0))
  | op => .error (.reservedOp op)

/-- A command word from its fields, the reserved field RSV zero (R43). -/
def wordOf (op x : Nibble) (a : U16) (e : U17) (d : U16) : Command :=
  (op.zeroExtend 64 <<< 60) ||| (x.zeroExtend 64 <<< 56) ||| (a.zeroExtend 64 <<< 40) |||
    (e.zeroExtend 64 <<< 16) ||| d.zeroExtend 64

/-- The encoder (R44, R45, R46): an unused field is 0. The internal operations have no word (R48). -/
def encode (i : Instr) : Option Command :=
  match i with
  | .read a => some (wordOf 0x1#4 0 a 0 0)
  | .read16 a => some (wordOf 0x2#4 0 a 0 0)
  | .readrange a e => some (wordOf 0x3#4 0 a e 0)
  | .write a d => some (wordOf 0x4#4 0 a 0 d)
  | .write2 a hi lo => some (wordOf 0x5#4 0 a 0 (joinBytes hi lo))
  | .write16 a d => some (wordOf 0x6#4 0 a 0 d)
  | .checkint => some (wordOf 0x7#4 0 0 0 0)
  | .setint l => some (wordOf 0x8#4 (0#1 ++ bitsOfLine l) 0 0 0)
  | .pressb m => some (wordOf 0x9#4 m 0 0 0)
  | .unpressb m => some (wordOf 0xA#4 m 0 0 0)
  | .pressd m => some (wordOf 0xB#4 m 0 0 0)
  | .unpressd m => some (wordOf 0xC#4 m 0 0 0)
  | .setime b => some (wordOf 0xD#4 (if b then 1 else 0) 0 0 0)
  | .updatejoyp _ => none
  | .dma _ => none
  | .rawstore _ _ => none
  | .bootstrap _ => none

/-- The instruction the decoder reads from a word given as a number: bit 0 is the command word's bit 0, and
every bit from `nbits` up is 0. A command is one 64-bit word, so no byte order enters (log 13). -/
def decodeTableWord (nbits w : Nat) : Option Instr :=
  match decode (BitVec.ofNat 64 (w % 2 ^ nbits)) with
  | .ok i => some i
  | .error _ => none

end Sys2Proof
end

