-- ==== Sys2Proof/Config.lean ====
section
/-! DEFINITION. The open parameters of the spec (00_scope.md R7) that are fixed when the block is built:
INIT_IMAGE and BOOT_TABLE. Each is an opaque constant with no body, so nothing can be proved about its
values. (The other two open parameters, the command stream and CPU_CALL, are inputs held in State.) -/

namespace Sys2Proof

/-- INIT_IMAGE (92_eei_decisions.md D24, 93_implementation_defined.md U1): the byte of each cell at
construction, the cartridge ROM below 0x8000 included. A free value (log 7). -/
opaque Config.initByte : Nat → Byte

/-- BOOT_TABLE (D25, U2) as a free partial map: the byte the table holds for address 0xFF00 + k, if it has
that address. A free value (log 8). -/
opaque Config.bootByte : Nat → Option Byte

/-- BOOT_TABLE as the list BOOTSTRAP applies (70_reset_and_hazards.md R84): the entries of
`Config.bootByte` for 0xFF01..0xFFFF but 0xFF46, ascending. It meets constraints (b), (c) and (d) of R85
whatever `Config.bootByte` is, and the order of a table's entries does not matter (R84). -/
def Config.bootTable : List BootEntry :=
  (List.range 256).filterMap fun k =>
    if k = 0 ∨ k = 0x46 then none
    else (Config.bootByte k).map fun b => (BitVec.ofNat 16 (0xFF00 + k), b)

/-- The informative sample table of R85 (93 G1): "Use it only as a sample value of the BOOT_TABLE
parameter." Nothing in the machine refers to it. -/
def Config.sampleBootTable : List BootEntry :=
  [(0xFF05#16, 0x00#8), (0xFF06#16, 0x00#8), (0xFF07#16, 0x00#8), (0xFF10#16, 0x80#8),
   (0xFF11#16, 0xBF#8), (0xFF12#16, 0xF3#8), (0xFF14#16, 0xBF#8), (0xFF16#16, 0x3F#8),
   (0xFF17#16, 0x00#8), (0xFF19#16, 0xBF#8), (0xFF1A#16, 0x7F#8), (0xFF1B#16, 0xFF#8),
   (0xFF1C#16, 0x9F#8), (0xFF1E#16, 0xBF#8), (0xFF20#16, 0xFF#8), (0xFF21#16, 0x00#8)] ++
  [(0xFF22#16, 0x00#8), (0xFF23#16, 0xBF#8), (0xFF24#16, 0x77#8), (0xFF25#16, 0xF3#8),
   (0xFF26#16, 0xF1#8), (0xFF40#16, 0x91#8), (0xFF42#16, 0x00#8), (0xFF43#16, 0x00#8),
   (0xFF45#16, 0x00#8), (0xFF47#16, 0xFC#8), (0xFF48#16, 0xFF#8), (0xFF49#16, 0xFF#8),
   (0xFF4A#16, 0x00#8), (0xFF4B#16, 0x00#8), (0xFFFF#16, 0x00#8)]

end Sys2Proof
end

