-- ==== Sys2Proof/Machine/Memory.lean ====
section
/-! DEFINITION. The backing store M (10_state.md R12, 20_memory.md R26): 65536 byte cells as a list of
(address, byte) pairs in one canonical form. -/

namespace Sys2Proof.Machine

/-- The cells that differ from what an unlisted address reads as. -/
abbrev Memory := List Host.Cell

/-- What an address that is not listed reads as. DESIGN CHOICE (log 6): only how the list is kept. It says
nothing about the store at construction, because `State.reset` lists INIT_IMAGE, whatever that is. -/
def Memory.unlisted : Byte := 0x00#8

/-- The cell at `a`. -/
def Memory.read (m : Memory) (a : Nat) : Byte :=
  match m with
  | [] => Memory.unlisted
  | (k, c) :: rest => if a = k then c else Memory.read rest a

/-- `m` with a cell put before it, or nothing put where the byte is what an unlisted address reads as. -/
def Memory.cons (a : Nat) (b : Byte) (m : Memory) : Memory :=
  if b = Memory.unlisted then m else (a, b) :: m

/-- `M[a] <- b`, keeping the canonical form. -/
def Memory.write (m : Memory) (a : Nat) (b : Byte) : Memory :=
  match m with
  | [] => Memory.cons a b []
  | (k, c) :: rest =>
    if a < k then Memory.cons a b ((k, c) :: rest)
    else if a = k then Memory.cons a b rest
    else (k, c) :: Memory.write rest a b

/-- The canonical list of the first `n` bytes of `f`. -/
@[irreducible] def Memory.ofBytes (f : Nat → Byte) (n : Nat) : Memory :=
  (List.range n).filterMap fun a => if f a = Memory.unlisted then none else some (a, f a)

/-- The canonical form: addresses strictly rising and in 0x0000..0xFFFF, no entry equal to what an unlisted
address reads as. -/
abbrev Memory.wf (m : Memory) : Prop :=
  m.Pairwise (fun x y => x.1 < y.1) ∧ ∀ c ∈ m, c.1 < 0x10000 ∧ c.2 ≠ Memory.unlisted

end Sys2Proof.Machine
end

