-- ==== Sys2Proof/Machine/State.lean ====
section
/-! DEFINITION. The state of the block (10_state.md R11), what the spec asks a model to record (R25, R6,
R47), the inputs the spec makes parameters (R61, 93 U15), and the state after reset (R83). -/

namespace Sys2Proof.Machine

/-- The one failure of the block (60_exceptions.md R70). -/
inductive Cause where
  | addressOutOfRange
  deriving DecidableEq, Repr

/-- FAULT's content: the cause and the failing address, a `nat` (R25, R70). -/
structure FaultRecord where
  cause : Cause
  addr : Nat
  deriving DecidableEq, Repr

/-- The response of a command (30_encoding.md R49). -/
inductive Response where
  /-- READ's byte. -/
  | data8 (b : Byte)
  /-- READ16's value. -/
  | data16 (v : U16)
  /-- READRANGE's bytes, in ascending order of address. -/
  | bytes (bs : List Byte)
  /-- Every other command that completes. -/
  | done
  /-- The command raised a fault (R70). -/
  | fault (record : FaultRecord)
  /-- `Refused(IllegalCommand)` (R47). -/
  | refusedIllegalCommand
  deriving DecidableEq, Repr

/-- One entry of the output trace (00_scope.md R6, 30_encoding.md R49). -/
inductive Output where
  /-- `Wake`: the CPU collaborator clears its halted state. -/
  | wake
  /-- `Call(vector)`. -/
  | call (vector : U16)
  /-- The response of a command taken from the command port. -/
  | response (r : Response)
  /-- The response of a command the CPU collaborator issued inside a Call (41_interrupt_controller.md R61 d). -/
  | reply (r : Response)
  deriving DecidableEq, Repr

/-- Why the machine stops. -/
inductive Fault where
  /-- FAULT is set, so no further command is accepted and the run is stuck (R25, D11). Raised by `accept`,
  so by `step` and by every meaning, in a state whose FAULT is not none. Safe: the model stops. -/
  | stuck (record : FaultRecord)
  deriving DecidableEq, Repr

/-- Why the model gives no meaning. -/
inductive Refusal where
  /-- Raised by an arm of `exec` whose instruction has no meaning yet; no arm is one. Safe: the model stops. -/
  | notModelled (mnemonic : String)
  /-- RAWSTORE below 0x8000, outside the domain R29 gives it. Raised by `execRawstore` only, which no command
  reaches. Safe: the model stops. -/
  | rawStoreOutsideDomain (addr : U16)
  /-- A BOOT_TABLE that breaks a constraint of R85 ("A model rejects the parameter", 95 B2). Raised by
  `execBootstrap` only, which no command reaches. Safe: the model stops. -/
  | invalidBootTable
  deriving DecidableEq, Repr

/-- The state of the block. -/
structure State where
  /-- M: the 65536 cells (R12). -/
  mem : Memory
  /-- IME, interrupt master enable (R14). -/
  ime : Bool
  /-- BTN, the buttons mask, active low (R15). -/
  btn : Nibble
  /-- DPAD, the dpad mask, active low (R15). -/
  dpad : Nibble
  /-- FAULT (R25). -/
  fault : Option FaultRecord
  /-- Some command of this run was refused (R47, D9). -/
  refused : Bool
  /-- The output trace, oldest first (R6). -/
  trace : List Output
  /-- INPUT: the command words not yet taken from the command port, next first (R5, D2). -/
  port : List Command
  /-- INPUT: the command words the CPU collaborator issues in each of its next Calls, next Call first
  (R61, D15). A Call past the end of the list issues no command (log 10). -/
  cpuCalls : List (List Command)
  deriving DecidableEq, Repr

/-- INIT_IMAGE as a memory: its 65536 bytes in the canonical form (00_scope.md R7, log 7). -/
def initImage : Memory := Memory.ofBytes Config.initByte 0x10000

/-- The block after construction and before BOOTSTRAP (70_reset_and_hazards.md R83, second column). -/
def State.construction : State :=
  { mem := initImage
    ime := false
    btn := 0xF#4
    dpad := 0xF#4
    fault := none
    refused := false
    trace := []
    port := []
    cpuCalls := [] }

/-- The block before its first command: construction followed by BOOTSTRAP (R83, third column). Every table
address stores plainly, so applying the table is writing its cells; `execBootstrap` itself goes through the
dispatcher. -/
def State.reset : State :=
  { State.construction with
    mem := Config.bootTable.foldl (fun m e => Memory.write m e.1.toNat e.2) State.construction.mem }

end Sys2Proof.Machine
end

