-- ==== Sys2Proof/Machine/Flags.lean ====
section
/-! DEFINITION. The interrupt lines as bits of IE and IF (10_state.md R17, R18, R19, R23), and the joypad
register's value (42_input_controller.md R66). -/

namespace Sys2Proof.Machine

/-- IF's address (00_scope.md R7). -/
def ifAddr : Nat := 0xFF0F

/-- IE's address (R7). -/
def ieAddr : Nat := 0xFFFF

/-- The lines in the order CHECKINT visits them (60_exceptions.md R73). -/
def linesInPriority : List Line := [.vblank, .lcdcStat, .timer, .serial, .input]

/-- The number of a line, its bit in IE and IF (R17). -/
def lineNumber (l : Line) : Nat :=
  match l with
  | .vblank => 0
  | .lcdcStat => 1
  | .timer => 2
  | .serial => 3
  | .input => 4

/-- `VEC(i)` (R23). -/
def lineVector (l : Line) : U16 :=
  match l with
  | .vblank => 0x0040#16
  | .lcdcStat => 0x0048#16
  | .timer => 0x0050#16
  | .serial => 0x0058#16
  | .input => 0x0060#16

/-- `1 << i` as a byte of IF. -/
def lineBit (l : Line) : Byte := 1#8 <<< lineNumber l

/-- IE bit i and IF bit i are both 1: "request pending and enabled" (R59). -/
def lineRequested (l : Line) (ie ifl : Byte) : Bool :=
  ie.getLsbD (lineNumber l) && ifl.getLsbD (lineNumber l)

/-- IF with the request of line i made (R62). -/
def withRequest (l : Line) (ifl : Byte) : Byte := ifl ||| lineBit l

/-- IF with the request of line i cleared and every other bit kept (R59). -/
def withoutRequest (l : Line) (ifl : Byte) : Byte := ifl &&& (0xFF#8 - lineBit l)

/-- The low nibble UPDATEJOYP computes: 0xF, ANDed with DPAD if `s[4]` and with BTN if `s[5]` (R66). A set
bit selects its group, as the source says (93 G8). -/
def joypLow (s : Byte) (btn dpad : Nibble) : Nibble :=
  0xF#4 &&& (if s.getLsbD 4 then dpad else 0xF#4) &&& (if s.getLsbD 5 then btn else 0xF#4)

/-- The byte UPDATEJOYP stores: `(s & 0xF0) | low` (R66, R20). -/
def joypValue (s : Byte) (btn dpad : Nibble) : Byte :=
  (s &&& 0xF0#8) ||| (joypLow s btn dpad).zeroExtend 8

/-- A group mask after a press: `G & m` (R64). -/
def pressed (g m : Nibble) : Nibble := g &&& m

/-- A group mask after a release: `G | (0xF - m)` (R65). -/
def released (g m : Nibble) : Nibble := g ||| (0xF#4 - m)

end Sys2Proof.Machine
end

