-- ==== Sys2Proof/Machine/Ops.lean ====
section
/-! DEFINITION. The named operations over the state: the field updates, the result of an operation, the three
access primitives with their side effects (20_memory.md R27, R28, R29), the output trace, taking the fault
AddressOutOfRange (60_exceptions.md R70), and how a command begins and ends. -/

namespace Sys2Proof.Machine

/-! ## Field updates -/

def State.setMem (s : State) (m : Memory) : State := { s with mem := m }
def State.setIme (s : State) (b : Bool) : State := { s with ime := b }
def State.setBtn (s : State) (g : Nibble) : State := { s with btn := g }
def State.setDpad (s : State) (g : Nibble) : State := { s with dpad := g }
def State.setFault (s : State) (f : FaultRecord) : State := { s with fault := some f }
def State.markRefused (s : State) : State := { s with refused := true }
def State.setPort (s : State) (ws : List Command) : State := { s with port := ws }
def State.setCalls (s : State) (cs : List (List Command)) : State := { s with cpuCalls := cs }

/-- Append an output to the trace (00_scope.md R6). -/
def State.push (s : State) (o : Output) : State := { s with trace := s.trace ++ [o] }

/-! ## The result of an operation -/

/-- An operation inside a command: it answers a value and the state after it, or it raises
AddressOutOfRange at an address, and then the effects already done stay (R70, D7). -/
inductive Res (α : Type) where
  | ok (a : α) (s : State)
  | raised (addr : Nat) (s : State)
  deriving DecidableEq, Repr

/-- Go on with the rest of the command; a fault stops it (00_scope.md R9). -/
def Res.andThen {α β : Type} (r : Res α) (f : α → State → Res β) : Res β :=
  match r with
  | .ok a s => f a s
  | .raised addr s => .raised addr s

/-! ## The access primitives -/

/-- `MemRead(a, 1)` (R27): no side effect at any address. -/
def memRead (a : Nat) (s : State) : Res Byte :=
  if 0xFFFF < a then .raised a s else .ok (Memory.read s.mem a) s

/-- `RawStore(a, b)`, the raw storage path (R29). -/
def rawStore (a : Nat) (b : Byte) (s : State) : State := s.setMem (Memory.write s.mem a b)

/-- UPDATEJOYP (42_input_controller.md R66). -/
def updateJoyp (sel : Byte) (s : State) : State := rawStore 0xFF00 (joypValue sel s.btn s.dpad) s

/-- The write dispatcher (R28), with the handler step 3 forwards the truncated byte to as an argument. -/
def writeDispatch (dmaHandler : Byte → State → Res Unit) (a : Nat) (value : Nat) (s : State) : Res Unit :=
  let b := BitVec.ofNat 8 value
  if a < 0x8000 then .ok () s
  else if a = 0xFF00 then .ok () (updateJoyp b s)
  else if a = 0xFF46 then dmaHandler b s
  else if 0xFFFF < a then .raised a s
  else .ok () (rawStore a b s)

/-- DMA's loop: `n` more bytes from index `k` on (43_dma_engine.md R68). Every byte goes through MemRead and
the write dispatcher. The destination is never 0xFF46 (R68 d), so the handler given to the dispatcher is
never reached (log 17). -/
def dmaCopy (src : Nat) (n k : Nat) (s : State) : Res Unit :=
  match n with
  | 0 => .ok () s
  | n + 1 =>
    (memRead (src + k) s).andThen fun b s =>
      (writeDispatch (fun _ s => .ok () s) (0xFE00 + k) b.toNat s).andThen fun _ s =>
        dmaCopy src n (k + 1) s

/-- DMA from page `v` (R68): 160 bytes. -/
def dmaTransfer (v : Byte) (s : State) : Res Unit := dmaCopy (v.toNat * 256) 160 0 s

/-- `MemWrite(a, 1, value)` (R28). -/
def memWrite (a : Nat) (value : Nat) (s : State) : Res Unit := writeDispatch dmaTransfer a value s

/-! ## How a command begins and ends -/

/-- A command is accepted only while FAULT is none; otherwise the run is stuck (10_state.md R25). -/
def accept (s : State) (run : State → Host.Outcome State Fault Refusal) : Host.Outcome State Fault Refusal :=
  match s.fault with
  | none => run s
  | some f => .fault (.stuck f)

/-- The numeric code of a cause (60_exceptions.md R70, D12). -/
def causeCode (c : Cause) : Nat :=
  match c with
  | .addressOutOfRange => 1

/-- What FAULT records when `addr` failed (R70). -/
def outOfRange (addr : Nat) : FaultRecord := { cause := .addressOutOfRange, addr := addr }

/-- Taking the fault AddressOutOfRange: FAULT is set and the response is `Fault(AddressOutOfRange, addr)`
(R70, R25). Nothing is saved and nothing is vectored (R74). -/
def takeFault (addr : Nat) (s : State) : State :=
  (s.setFault (outOfRange addr)).push (.response (.fault (outOfRange addr)))

/-- Refusing an illegal command word: no state change, the response `Refused(IllegalCommand)`, and the mark
for the run (30_encoding.md R47, D9). -/
def refuseCommand (s : State) : State := s.markRefused.push (.response .refusedIllegalCommand)

/-- The end of a command: its one response (R49), or the fault it raised. -/
def complete (r : Res Response) : Host.Outcome State Fault Refusal :=
  match r with
  | .ok a s => .next (s.push (.response a))
  | .raised addr s => .next (takeFault addr s)

/-- The end of an internal operation, which has no response of its own (R48, R49). -/
def settle (r : Res Unit) : Host.Outcome State Fault Refusal :=
  match r with
  | .ok _ s => .next s
  | .raised addr s => .next (takeFault addr s)

/-- The response of a command that answers no data (R49). -/
def thenDone (r : Res Unit) : Res Response := r.andThen fun _ s => .ok .done s

end Sys2Proof.Machine
end

