-- ==== Sys2Proof/Machine/Operands.lean ====
section
/-! DEFINITION. The operand forms: 16-bit values as two bytes, low byte first (20_memory.md R32, R34), and a
range of bytes. -/

namespace Sys2Proof.Machine

/-- `MemRead(a, 2)` (40_address_space.md R53): low byte at `a`, high byte at `a + 1`, which never wraps. -/
def memRead16 (a : Nat) (s : State) : Res U16 :=
  (memRead a s).andThen fun lo s =>
    (memRead (a + 1) s).andThen fun hi s => .ok (joinBytes hi lo) s

/-- Two dispatched byte writes: `lo` at `a`, then `hi` at `a + 1` (R56, R57). -/
def memWrite16 (a : Nat) (lo hi : Byte) (s : State) : Res Unit :=
  (memWrite a lo.toNat s).andThen fun _ s => memWrite (a + 1) hi.toNat s

/-- `n` bytes from `a` on, ascending (R54). -/
def memReadBytes (n a : Nat) (s : State) : Res (List Byte) :=
  match n with
  | 0 => .ok [] s
  | n + 1 =>
    (memRead a s).andThen fun b s =>
      (memReadBytes n (a + 1) s).andThen fun bs s => .ok (b :: bs) s

/-- `readRange(start, end)` (R54): the end is tested before any read (D8); empty when `start ≥ end`. -/
def memReadRange (start stop : Nat) (s : State) : Res (List Byte) :=
  if 0x10000 < stop then .raised 0x10000 s else memReadBytes (stop - start) start s

end Sys2Proof.Machine
end

