-- ==== Sys2Proof/Machine/AddressSpace.lean ====
section
/-! DEFINITION. The AddressSpace commands (40_address_space.md) and RAWSTORE (20_memory.md R29). -/

namespace Sys2Proof.Machine

/-! ## What each memory command does, at the port and inside a Call alike (41_interrupt_controller.md R61 d) -/

/-- READ (R52). -/
def readCommand (addr : U16) (s : State) : Res Response :=
  (memRead addr.toNat s).andThen fun b s => .ok (.data8 b) s

/-- READ16 (R53). -/
def read16Command (addr : U16) (s : State) : Res Response :=
  (memRead16 addr.toNat s).andThen fun v s => .ok (.data16 v) s

/-- READRANGE (R54). -/
def readrangeCommand (start : U16) (stop : U17) (s : State) : Res Response :=
  (memReadRange start.toNat stop.toNat s).andThen fun bs s => .ok (.bytes bs) s

/-- WRITE (R55): the dispatcher truncates `value`. -/
def writeCommand (addr value : U16) (s : State) : Res Response :=
  thenDone (memWrite addr.toNat value.toNat s)

/-- WRITE2 (R56). -/
def write2Command (addr : U16) (hi lo : Byte) (s : State) : Res Response :=
  thenDone (memWrite16 addr.toNat lo hi s)

/-- WRITE16 (R57). -/
def write16Command (addr value : U16) (s : State) : Res Response :=
  thenDone (memWrite16 addr.toNat (lo8 value) (hi8 value) s)

/-- The commands CPU_CALL may issue, with their full effect (R61 d); no other (R61 f). -/
def memoryCommand (i : Instr) : Option (State → Res Response) :=
  match i with
  | .read a => some (readCommand a)
  | .read16 a => some (read16Command a)
  | .readrange a e => some (readrangeCommand a e)
  | .write a v => some (writeCommand a v)
  | .write2 a hi lo => some (write2Command a hi lo)
  | .write16 a v => some (write16Command a v)
  | .checkint => none
  | .setint _ => none
  | .pressb _ => none
  | .unpressb _ => none
  | .pressd _ => none
  | .unpressd _ => none
  | .setime _ => none
  | .updatejoyp _ => none
  | .dma _ => none
  | .rawstore _ _ => none
  | .bootstrap _ => none

/-! ## The meanings -/

/-- READ (R52). -/
def execRead (addr : U16) (s : State) : Host.Outcome State Fault Refusal :=
  accept s fun s => complete (readCommand addr s)

/-- READ16 (R53). -/
def execRead16 (addr : U16) (s : State) : Host.Outcome State Fault Refusal :=
  accept s fun s => complete (read16Command addr s)

/-- READRANGE (R54). -/
def execReadrange (start : U16) (stop : U17) (s : State) : Host.Outcome State Fault Refusal :=
  accept s fun s => complete (readrangeCommand start stop s)

/-- WRITE (R55). -/
def execWrite (addr value : U16) (s : State) : Host.Outcome State Fault Refusal :=
  accept s fun s => complete (writeCommand addr value s)

/-- WRITE2 (R56). -/
def execWrite2 (addr : U16) (hi lo : Byte) (s : State) : Host.Outcome State Fault Refusal :=
  accept s fun s => complete (write2Command addr hi lo s)

/-- WRITE16 (R57). -/
def execWrite16 (addr value : U16) (s : State) : Host.Outcome State Fault Refusal :=
  accept s fun s => complete (write16Command addr value s)

/-- RAWSTORE (R29), with the domain the rule gives it. -/
def execRawstore (addr : U16) (b : Byte) (s : State) : Host.Outcome State Fault Refusal :=
  accept s fun s =>
    if rawStoreOk addr then settle (.ok () (rawStore addr.toNat b s))
    else .refused (.rawStoreOutsideDomain addr)

end Sys2Proof.Machine
end

