-- ==== Sys2Proof/Machine/Bootstrap.lean ====
section
/-! DEFINITION. BOOTSTRAP (70_reset_and_hazards.md R84). -/

namespace Sys2Proof.Machine

/-- The pairs of a BOOT_TABLE, in list order, each through the normal write path (R84). -/
def applyBootTable (table : List BootEntry) (s : State) : Res Unit :=
  match table with
  | [] => .ok () s
  | e :: rest => (memWrite e.1.toNat e.2.toNat s).andThen fun _ s => applyBootTable rest s

/-- BOOTSTRAP (R84). A table that breaks R85 is rejected (95 B2, B3). -/
def execBootstrap (table : List BootEntry) (s : State) : Host.Outcome State Fault Refusal :=
  accept s fun s =>
    if bootTableOk table then settle (applyBootTable table s) else .refused .invalidBootTable

end Sys2Proof.Machine
end

