-- ==== Sys2Proof/Machine/DmaEngine.lean ====
section
/-! DEFINITION. The DMA engine (43_dma_engine.md). -/

namespace Sys2Proof.Machine

/-- DMA (R68), the internal operation on its own (log 14). -/
def execDma (v : Byte) (s : State) : Host.Outcome State Fault Refusal :=
  accept s fun s => settle (dmaTransfer v s)

end Sys2Proof.Machine
end

