-- ==== Sys2Proof/Machine/InterruptController.lean ====
section
/-! DEFINITION. The InterruptController commands (41_interrupt_controller.md): CHECKINT with interrupt entry
and the CPU collaborator's Call, SETINT, SETIME. -/

namespace Sys2Proof.Machine

/-- `setInterrupt(i)` (R62): OR bit i into IF through the write path. -/
def requestLine (l : Line) (s : State) : Res Unit :=
  (memRead ifAddr s).andThen fun v s => memWrite ifAddr (withRequest l v).toNat s

/-- A command inside a Call that is no memory command, or no command at all: the model refuses it (R61 f),
as R47 refuses a word (93 U7, log 11). -/
def refuseInCall (s : State) : State := s.markRefused.push (.reply .refusedIllegalCommand)

/-- One command word the CPU collaborator issues inside a Call (R61 d, f). -/
def callCommand (w : Command) (s : State) : Res Unit :=
  match decode w with
  | .error _ => .ok () (refuseInCall s)
  | .ok i =>
    match memoryCommand i with
    | none => .ok () (refuseInCall s)
    | some act =>
      match act s with
      | .ok r s => .ok () (s.push (.reply r))
      | .raised addr s => .raised addr (s.push (.reply (.fault (outOfRange addr))))

/-- The command words of one Call, in order, to the end or to the first fault (R61 c, R73). -/
def callCommands (ws : List Command) (s : State) : Res Unit :=
  match ws with
  | [] => .ok () s
  | w :: ws => (callCommand w s).andThen fun _ s => callCommands ws s

/-- `CPU_CALL(v)` (R61): the next command sequence of the input `cpuCalls`; none left, no command (log 10). -/
def cpuCall (s : State) : Res Unit :=
  match s.cpuCalls with
  | [] => .ok () s
  | ws :: rest => callCommands ws (s.setCalls rest)

/-- Interrupt entry for line i after its Wake (60_exceptions.md R74 (2) to (4)): clear IF bit i through the
write path, IME false, Call, and the CPU collaborator's part of it. -/
def dispatchLine (l : Line) (s : State) : Res Unit :=
  (memRead ifAddr s).andThen fun v s =>
    (memWrite ifAddr (withoutRequest l v).toNat s).andThen fun _ s =>
      cpuCall ((s.setIme false).push (.call (lineVector l)))

/-- One line of CHECKINT (R59): IE and IF are read afresh; a Wake whenever the line is requested, and the
dispatch if IME was true at entry. -/
def checkLine (ime0 : Bool) (l : Line) (s : State) : Res Unit :=
  (memRead ieAddr s).andThen fun ie s =>
    (memRead ifAddr s).andThen fun ifl s =>
      let requested := lineRequested l ie ifl
      let s := if requested then s.push .wake else s
      if ime0 && requested then dispatchLine l s else .ok () s

/-- The lines of CHECKINT in order, without short-circuit (R60). -/
def checkLines (ime0 : Bool) (ls : List Line) (s : State) : Res Unit :=
  match ls with
  | [] => .ok () s
  | l :: ls => (checkLine ime0 l s).andThen fun _ s => checkLines ime0 ls s

/-- CHECKINT (R59): IME is sampled once, at entry (90_conflicts.md C1). -/
def execCheckint (s : State) : Host.Outcome State Fault Refusal :=
  accept s fun s => complete (thenDone (checkLines s.ime linesInPriority s))

/-- SETINT (R62). -/
def execSetint (l : Line) (s : State) : Host.Outcome State Fault Refusal :=
  accept s fun s => complete (thenDone (requestLine l s))

/-- SETIME (R63). -/
def execSetime (b : Bool) (s : State) : Host.Outcome State Fault Refusal :=
  accept s fun s => complete (.ok .done (s.setIme b))

end Sys2Proof.Machine
end

