-- ==== Sys2Proof/Machine/InputController.lean ====
section
/-! DEFINITION. The InputController commands (42_input_controller.md) and UPDATEJOYP. -/

namespace Sys2Proof.Machine

/-- PRESSB (R64): `BTN & m`, then the INPUT request. -/
def execPressb (m : Nibble) (s : State) : Host.Outcome State Fault Refusal :=
  accept s fun s => complete (thenDone (requestLine .input (s.setBtn (pressed s.btn m))))

/-- UNPRESSB (R65): no interrupt is raised. -/
def execUnpressb (m : Nibble) (s : State) : Host.Outcome State Fault Refusal :=
  accept s fun s => complete (.ok .done (s.setBtn (released s.btn m)))

/-- PRESSD (R64): `DPAD & m`, then the INPUT request. -/
def execPressd (m : Nibble) (s : State) : Host.Outcome State Fault Refusal :=
  accept s fun s => complete (thenDone (requestLine .input (s.setDpad (pressed s.dpad m))))

/-- UNPRESSD (R65): no interrupt is raised. -/
def execUnpressd (m : Nibble) (s : State) : Host.Outcome State Fault Refusal :=
  accept s fun s => complete (.ok .done (s.setDpad (released s.dpad m)))

/-- UPDATEJOYP (R66), the internal operation on its own (log 14). -/
def execUpdatejoyp (sel : Byte) (s : State) : Host.Outcome State Fault Refusal :=
  accept s fun s => settle (.ok () (updateJoyp sel s))

end Sys2Proof.Machine
end

