-- ==== Sys2Proof/Machine/Dispatch.lean ====
section
/-! DEFINITION. What each instruction does: one arm per constructor, each one call of its meaning. -/

namespace Sys2Proof.Machine

/-- The block executes one accepted command, or one of its internal operations, to completion
(00_scope.md R5). -/
def exec (i : Instr) (s : State) : Host.Outcome State Fault Refusal :=
  match i with
  | .read addr => Sys2Proof.Machine.execRead addr s
  | .read16 addr => Sys2Proof.Machine.execRead16 addr s
  | .readrange start stop => Sys2Proof.Machine.execReadrange start stop s
  | .write addr value => Sys2Proof.Machine.execWrite addr value s
  | .write2 addr hi lo => Sys2Proof.Machine.execWrite2 addr hi lo s
  | .write16 addr value => Sys2Proof.Machine.execWrite16 addr value s
  | .checkint => Sys2Proof.Machine.execCheckint s
  | .setint line => Sys2Proof.Machine.execSetint line s
  | .pressb mask => Sys2Proof.Machine.execPressb mask s
  | .unpressb mask => Sys2Proof.Machine.execUnpressb mask s
  | .pressd mask => Sys2Proof.Machine.execPressd mask s
  | .unpressd mask => Sys2Proof.Machine.execUnpressd mask s
  | .setime b => Sys2Proof.Machine.execSetime b s
  | .updatejoyp sel => Sys2Proof.Machine.execUpdatejoyp sel s
  | .dma v => Sys2Proof.Machine.execDma v s
  | .rawstore addr b => Sys2Proof.Machine.execRawstore addr b s
  | .bootstrap table => Sys2Proof.Machine.execBootstrap table s

end Sys2Proof.Machine
end

