-- ==== Sys2Proof/Machine/Port.lean ====
section
/-! DEFINITION. Taking the next command word from the command port (00_scope.md R5, 30_encoding.md R43). -/

namespace Sys2Proof.Machine

/-- What the command port offers. -/
inductive Offered where
  /-- No command is waiting. -/
  | idle
  /-- An illegal word, taken from the port (R47). -/
  | illegal (s : State)
  /-- A command, taken from the port. -/
  | command (i : Instr) (s : State)
  deriving DecidableEq, Repr

/-- Take the next word from the port and decode it (R46). -/
def takeCommand (s : State) : Offered :=
  match s.port with
  | [] => .idle
  | w :: rest =>
    match decode w with
    | .ok i => .command i (s.setPort rest)
    | .error _ => .illegal (s.setPort rest)

/-- Put a word in front of the port, so that it is the next one taken. -/
def offerWord (w : Command) (s : State) : State := s.setPort (w :: s.port)

end Sys2Proof.Machine
end

