-- ==== Sys2Proof/Machine/Step.lean ====
section
/-! DEFINITION. One step of the machine: one command of the stream, to completion (00_scope.md R5). -/

namespace Sys2Proof.Machine

/-- One step. With FAULT set the run is stuck (10_state.md R25). With no command waiting the block does
nothing (log 2). An illegal word is refused (30_encoding.md R47). -/
def step (s : State) : Host.Outcome State Fault Refusal :=
  accept s fun s =>
    match takeCommand s with
    | .idle => .next s
    | .illegal s => .next (refuseCommand s)
    | .command i s => exec i s

/-- `s` with the word `w` (every bit from `nbits` up zero) as the next one the step takes (log 1). -/
def State.withFetchWord (s : State) (nbits w : Nat) : State :=
  offerWord (BitVec.ofNat 64 (w % 2 ^ nbits)) s

end Sys2Proof.Machine
end

