-- ==== Sys2Proof/Machine/Assembler.lean ====
section
/-! DEFINITION. The spec's assembler syntax (30_encoding.md R50) and its pseudo-commands (R51): one line of
text to one command. The machine does not use it. -/

namespace Sys2Proof.Machine

/-- Why a line does not assemble. -/
inductive AsmError where
  /-- No mnemonic or pseudo-command of R50 and R51. -/
  | unknownMnemonic
  /-- Too few or too many operands. -/
  | operandCount
  /-- An operand that is neither a number nor a name the mnemonic takes. -/
  | badOperand
  /-- "An operand that does not fit its field is an assembly error" (R50). -/
  | operandTooLarge
  deriving DecidableEq, Repr

/-- A blank: a space or a tab. -/
def isBlank (c : Char) : Bool := c = ' ' || c = '\t'

/-- The text without blanks at either end. -/
def trimBlanks (cs : List Char) : List Char := ((cs.dropWhile isBlank).reverse.dropWhile isBlank).reverse

/-- The pieces between commas. -/
def splitCommas (cs : List Char) : List (List Char) :=
  match cs with
  | [] => [[]]
  | c :: cs =>
    match splitCommas cs with
    | [] => [[c]]
    | p :: ps => if c = ',' then [] :: p :: ps else (c :: p) :: ps

/-- The value of a digit, in either case of letter. -/
def digitValue (c : Char) : Option Nat :=
  let n := c.toNat
  if 48 ≤ n ∧ n ≤ 57 then some (n - 48)
  else if 65 ≤ n ∧ n ≤ 70 then some (n - 55)
  else if 97 ≤ n ∧ n ≤ 102 then some (n - 87)
  else none

/-- Digits in a base, continuing from `acc`. -/
def digitsFrom (base acc : Nat) (cs : List Char) : Option Nat :=
  match cs with
  | [] => some acc
  | c :: cs =>
    match digitValue c with
    | some d => if d < base then digitsFrom base (acc * base + d) cs else none
    | none => none

/-- A number: hexadecimal with `0x`, binary with `0b`, or decimal otherwise (R50). -/
def numberOf (cs : List Char) : Option Nat :=
  match cs with
  | [] => none
  | '0' :: 'x' :: d :: ds => digitsFrom 16 0 (d :: ds)
  | '0' :: 'b' :: d :: ds => digitsFrom 2 0 (d :: ds)
  | d :: ds => digitsFrom 10 0 (d :: ds)

/-- A number operand in a field of `w` bits, never truncated into it (R50). -/
def fieldOf (w : Nat) (cs : List Char) : Except AsmError (BitVec w) :=
  match numberOf cs with
  | none => .error .badOperand
  | some n => if n < 2 ^ w then .ok (BitVec.ofNat w n) else .error .operandTooLarge

/-- What a table of names gives for a name. -/
def namedIn {α : Type} (table : List (String × α)) (cs : List Char) : Option α :=
  match table with
  | [] => none
  | e :: rest => if e.1.toList = cs then some e.2 else namedIn rest cs

/-- The names of the lines (R50). -/
def lineNames : List (String × Line) :=
  [("VBLANK", .vblank), ("LCDC", .lcdcStat), ("TIMER", .timer), ("SERIAL", .serial), ("INPUT", .input)]

/-- SETINT's operand: a line's name or its number (R50). -/
def lineOperand (cs : List Char) : Except AsmError Line :=
  match namedIn lineNames cs with
  | some l => .ok l
  | none =>
    match fieldOf 3 cs with
    | .error e => .error e
    | .ok x =>
      match lineOfBits x with
      | some l => .ok l
      | none => .error .badOperand

/-- SETIME's operand: 0 or 1 (R50). -/
def bitOperand (cs : List Char) : Except AsmError Bool :=
  match fieldOf 1 cs with
  | .error e => .error e
  | .ok b => .ok (b.getLsbD 0)

/-- A joypad group. -/
inductive Group where
  | buttons | directions
  deriving DecidableEq, Repr

/-- The group and the single-bit-clear mask of each button's name (R51, 92 D22). -/
def buttonNames : List (String × (Group × Nibble)) :=
  [("A", (.buttons, 0xE#4)), ("B", (.buttons, 0xD#4)), ("SELECT", (.buttons, 0xB#4)), ("START", (.buttons, 0x7#4)),
   ("RIGHT", (.directions, 0xE#4)), ("LEFT", (.directions, 0xD#4)), ("UP", (.directions, 0xB#4)),
   ("DOWN", (.directions, 0x7#4))]

/-- PRESS's and RELEASE's operand (R51). -/
def buttonOperand (cs : List Char) : Except AsmError (Group × Nibble) :=
  match namedIn buttonNames cs with
  | some b => .ok b
  | none => .error .badOperand

/-- Mnemonics with no operand. -/
def nullaryOps : List (String × Instr) :=
  [("CHECKINT", .checkint), ("EI", .setime true), ("DI", .setime false)]

/-- One operand, read and given to its command. -/
def withOperand {α : Type} (x : Except AsmError α) (f : α → Except AsmError Instr) : Except AsmError Instr :=
  match x with
  | .ok a => f a
  | .error e => .error e

/-- Mnemonics with one operand. -/
def unaryOps : List (String × (List Char → Except AsmError Instr)) :=
  [("READ", fun a => withOperand (fieldOf 16 a) fun a => .ok (.read a)),
   ("READ16", fun a => withOperand (fieldOf 16 a) fun a => .ok (.read16 a)),
   ("SETINT", fun a => withOperand (lineOperand a) fun l => .ok (.setint l)),
   ("SETIME", fun a => withOperand (bitOperand a) fun b => .ok (.setime b)),
   ("PRESSB", fun a => withOperand (fieldOf 4 a) fun m => .ok (.pressb m)),
   ("UNPRESSB", fun a => withOperand (fieldOf 4 a) fun m => .ok (.unpressb m)),
   ("PRESSD", fun a => withOperand (fieldOf 4 a) fun m => .ok (.pressd m)),
   ("UNPRESSD", fun a => withOperand (fieldOf 4 a) fun m => .ok (.unpressd m)),
   ("PRESS", fun a => withOperand (buttonOperand a) fun b =>
        match b with
        | (.buttons, m) => .ok (.pressb m)
        | (.directions, m) => .ok (.pressd m)),
   ("RELEASE", fun a => withOperand (buttonOperand a) fun b =>
        match b with
        | (.buttons, m) => .ok (.unpressb m)
        | (.directions, m) => .ok (.unpressd m)),
   ("DMA", fun a => withOperand (fieldOf 8 a) fun p => .ok (.write 0xFF46#16 (p.zeroExtend 16))),
   ("JOYP", fun a => withOperand (fieldOf 8 a) fun v => .ok (.write 0xFF00#16 (v.zeroExtend 16))),
   ("SETIE", fun a => withOperand (fieldOf 8 a) fun v => .ok (.write 0xFFFF#16 (v.zeroExtend 16))),
   ("SETIF", fun a => withOperand (fieldOf 8 a) fun v => .ok (.write 0xFF0F#16 (v.zeroExtend 16)))]

/-- Mnemonics with two operands. -/
def binaryOps : List (String × (List Char → List Char → Except AsmError Instr)) :=
  [("READRANGE", fun s e =>
        withOperand (fieldOf 16 s) fun s => withOperand (fieldOf 17 e) fun e => .ok (.readrange s e)),
   ("WRITE", fun a v =>
        withOperand (fieldOf 16 a) fun a => withOperand (fieldOf 16 v) fun v => .ok (.write a v)),
   ("WRITE16", fun a v =>
        withOperand (fieldOf 16 a) fun a => withOperand (fieldOf 16 v) fun v => .ok (.write16 a v))]

/-- Mnemonics with three operands. -/
def ternaryOps : List (String × (List Char → List Char → List Char → Except AsmError Instr)) :=
  [("WRITE2", fun a hi lo =>
        withOperand (fieldOf 16 a) fun a => withOperand (fieldOf 8 hi) fun hi => withOperand (fieldOf 8 lo) fun lo =>
          .ok (.write2 a hi lo))]

/-- A known mnemonic with the wrong number of operands, or an unknown one. -/
def countError (m : List Char) : AsmError :=
  if (namedIn nullaryOps m).isSome || (namedIn unaryOps m).isSome || (namedIn binaryOps m).isSome ||
      (namedIn ternaryOps m).isSome then .operandCount
  else .unknownMnemonic

/-- A mnemonic with its operands. -/
def assembleOp (m : List Char) (operands : List (List Char)) : Except AsmError Instr :=
  match operands with
  | [] => match namedIn nullaryOps m with | some i => .ok i | none => .error (countError m)
  | [a] => match namedIn unaryOps m with | some f => f a | none => .error (countError m)
  | [a, b] => match namedIn binaryOps m with | some f => f a b | none => .error (countError m)
  | [a, b, c] => match namedIn ternaryOps m with | some f => f a b c | none => .error (countError m)
  | _ => .error (countError m)

/-- One line (R50): a mnemonic, then operands separated by commas; `;` starts a comment. A line with no
command on it assembles to none. -/
def assembleLine (cs : List Char) : Except AsmError (Option Instr) :=
  let line := trimBlanks (cs.takeWhile (· ≠ ';'))
  let m := line.takeWhile (! isBlank ·)
  let rest := trimBlanks (line.dropWhile (! isBlank ·))
  if m = [] then .ok none
  else
    match assembleOp m (if rest = [] then [] else (splitCommas rest).map trimBlanks) with
    | .ok i => .ok (some i)
    | .error e => .error e

end Sys2Proof.Machine
end

