-- ==== Sys2Proof/Safety.lean ====
section
/-! DEFINITION. What counts as a safe run, and the terms the statements use. -/

namespace Sys2Proof.Machine

/-- The cells that keep their INIT_IMAGE byte for the block's whole life (20_memory.md R30). -/
def NeverWritten (a : Nat) : Prop := a < 0x8000 ∨ a = 0xFF46

/-- No fault so far, so the block still accepts commands (10_state.md R25). -/
def Running (s : State) : Prop := s.fault = none

/-- A run's state in which nothing was refused (30_encoding.md R47) and nothing failed (60_exceptions.md R70). -/
def SafeState (s : State) : Prop := s.fault = none ∧ s.refused = false

/-- A final state of a run: every command taken, and no fault ("It is never a final state of a run", R25). -/
def FinalState (s : State) : Prop := s.fault = none ∧ s.port = []

/-- Everything but a response of the command port: an event, or a reply inside a Call. -/
def Output.isEvent : Output → Bool
  | .response _ => false
  | .wake => true
  | .call _ => true
  | .reply _ => true

/-- The three kinds of output of 00_scope.md R6: Wake, Call and Fault. -/
def Output.isBlockOutput : Output → Bool
  | .wake => true
  | .call _ => true
  | .response (.fault _) => true
  | .response _ => false
  | .reply _ => false

/-- The output trace in the sense of R6, without the data commands answer (95 P3). -/
def blockOutputs (s : State) : List Output := s.trace.filter Output.isBlockOutput

/-- The vectors called, in order. -/
def calledVectors (os : List Output) : List U16 :=
  os.filterMap fun o => match o with
    | .call v => some v
    | .wake => none
    | .response _ => none
    | .reply _ => none

/-- The lines with IE bit i = 1 and IF bit i = 1, in priority order (R72, R73). -/
def requestedLines (s : State) : List Line :=
  linesInPriority.filter fun l =>
    (Memory.read s.mem 0xFFFF).getLsbD (lineNumber l) && (Memory.read s.mem 0xFF0F).getLsbD (lineNumber l)

/-- The byte in the cell `x` after a write of byte `b` to `a`, from the table of 20_memory.md R35. -/
def cellAfterWrite (s : State) (a : Nat) (b : Byte) (x : Nat) : Byte :=
  if a < 0x8000 then Memory.read s.mem x
  else if a = 0xFF00 then if x = 0xFF00 then joypValue b s.btn s.dpad else Memory.read s.mem x
  else if a = 0xFF46 then
    if 0xFE00 ≤ x ∧ x < 0xFEA0 then Memory.read s.mem (b.toNat * 256 + (x - 0xFE00)) else Memory.read s.mem x
  else if x = a then b
  else Memory.read s.mem x

/-- The write commands that write a byte at `x` (40_address_space.md R55, R56, R57). -/
def WriteReaches (i : Instr) (x : Nat) : Prop :=
  (∃ a v, i = .write a v ∧ a.toNat = x) ∨
  (∃ a hi lo, i = .write2 a hi lo ∧ (a.toNat = x ∨ a.toNat + 1 = x)) ∨
  (∃ a v, i = .write16 a v ∧ (a.toNat = x ∨ a.toNat + 1 = x))

/-- The commands that raise AddressOutOfRange: the first four rows of the table of 60_exceptions.md R70. -/
def RaisesOutOfRange (i : Instr) : Prop :=
  i = .read16 0xFFFF#16 ∨ (∃ a e, i = .readrange a e ∧ 0x10000 < e.toNat) ∨
  (∃ hi lo, i = .write2 0xFFFF#16 hi lo) ∨ ∃ v, i = .write16 0xFFFF#16 v

/-- Some word of the next five Calls, the most one CHECKINT makes, decodes to an instruction that meets `P`. -/
def CallsIssue (s : State) (P : Instr → Prop) : Prop :=
  ∃ ws ∈ s.cpuCalls.take 5, ∃ w ∈ ws, ∃ i, decode w = .ok i ∧ P i

/-- The opcode map of 30_encoding.md R46: each row's mask and match. -/
def opcodeMap : List (Command × Command) :=
  [(0xFF0000FFFFFFFFFF#64, 0x1000000000000000#64), (0xFF0000FFFFFFFFFF#64, 0x2000000000000000#64),
   (0xFF0000FE0000FFFF#64, 0x3000000000000000#64), (0xFF0000FFFFFF0000#64, 0x4000000000000000#64),
   (0xFF0000FFFFFF0000#64, 0x5000000000000000#64), (0xFF0000FFFFFF0000#64, 0x6000000000000000#64),
   (0xFFFFFFFFFFFFFFFF#64, 0x7000000000000000#64), (0xF8FFFFFFFFFFFFFF#64, 0x8000000000000000#64),
   (0xF0FFFFFFFFFFFFFF#64, 0x9000000000000000#64), (0xF0FFFFFFFFFFFFFF#64, 0xA000000000000000#64),
   (0xF0FFFFFFFFFFFFFF#64, 0xB000000000000000#64), (0xF0FFFFFFFFFFFFFF#64, 0xC000000000000000#64),
   (0xFEFFFFFFFFFFFFFF#64, 0xD000000000000000#64)]

/-- A word that meets a row's mask and match, and for SETINT names a line in 0..4 (R46). -/
def LegalWord (w : Command) : Prop :=
  ∃ r ∈ opcodeMap, w &&& r.1 = r.2 ∧ (r.2 = 0x8000000000000000#64 → (w.extractLsb' 56 3).toNat ≤ 4)

/-- The three kinds of illegal word of R47: (a) OP is 0x0, 0xE or 0xF; (b) OP is assigned, but a bit its row's
mask fixes does not hold the fixed value; (c) SETINT with `X[2:0]` in 5..7. -/
def IllegalKind (w : Command) : Prop :=
  (w.extractLsb' 60 4 = 0x0#4 ∨ w.extractLsb' 60 4 = 0xE#4 ∨ w.extractLsb' 60 4 = 0xF#4) ∨
  (∃ r ∈ opcodeMap, w.extractLsb' 60 4 = r.2.extractLsb' 60 4 ∧ w &&& r.1 ≠ r.2) ∨
  (w.extractLsb' 60 4 = 0x8#4 ∧ 5 ≤ (w.extractLsb' 56 3).toNat)

/-- What holds at reset and after every step: memory is canonical, the never-written cells hold INIT_IMAGE,
FAULT names an address outside the space and was answered, and every refusal left its mark. -/
structure Inv (s : State) : Prop where
  canonical : Memory.wf s.mem
  image : ∀ a, NeverWritten a → Memory.read s.mem a = Config.initByte a
  faultAddr : ∀ f, s.fault = some f → 0x10000 ≤ f.addr
  faultAnswered : ∀ f, s.fault = some f → .response (.fault f) ∈ s.trace
  refusalMarked : .response .refusedIllegalCommand ∈ s.trace ∨ .reply .refusedIllegalCommand ∈ s.trace →
    s.refused = true

end Sys2Proof.Machine
end

