-- ==== Sys2Proof/Certificates/Slice0/Obligations.lean ====
section
/-! DEFINITION. The statements for the provers, from the spec's numbered rules. A next state is written out as
a record update of the state before, so that a statement about a result states the frame too. -/

open Sys2Proof Sys2Proof.Machine

/-! ## Encoding (30_encoding.md) -/

/-- R43 to R46: the decoder reads an encoded well-formed instruction back, every operand at every value. -/
def Obligations.EncodedInstructionDecodesBack : Prop :=
  ∀ (i : Instr) (w : Command), i.wellFormed = true → encode i = some w → decode w = .ok i

/-- R43 to R46: a word that decodes is the one word of its instruction; no bit of it is dropped. -/
def Obligations.DecodedWordIsTheEncoding : Prop :=
  ∀ (w : Command) (i : Instr), decode w = .ok i → i.wellFormed = true ∧ encode i = some w

/-- R46: a word decodes exactly when it meets a row's mask and match, and for SETINT names a line 0..4. -/
def Obligations.LegalWordsAreTheOpcodeMap : Prop :=
  ∀ w : Command, (∃ i, decode w = .ok i) ↔ LegalWord w

/-- R46: no two rows overlap. -/
def Obligations.OpcodeRowsDoNotOverlap : Prop :=
  ∀ (w : Command), ∀ r ∈ opcodeMap, ∀ q ∈ opcodeMap, w &&& r.1 = r.2 → w &&& q.1 = q.2 → r = q

/-- R48: the four internal operations have no command word, and no word decodes to one. -/
def Obligations.InternalOperationsHaveNoWord : Prop :=
  (∀ s, encode (.updatejoyp s) = none) ∧ (∀ v, encode (.dma v) = none) ∧ (∀ a b, encode (.rawstore a b) = none) ∧
  (∀ t, encode (.bootstrap t) = none) ∧
  ∀ (w : Command) (i : Instr), decode w = .ok i →
    (∀ s, i ≠ .updatejoyp s) ∧ (∀ v, i ≠ .dma v) ∧ (∀ a b, i ≠ .rawstore a b) ∧ (∀ t, i ≠ .bootstrap t)

/-- A sanity check of a few words of 95_test_vectors.md 2.1, written out from R43. -/
def Obligations.WorkedWordsDecode : Prop :=
  decode 0x40FF460000000083#64 = .ok (.write 0xFF46#16 0x0083#16) ∧
  decode 0x30FFFE0100000000#64 = .ok (.readrange 0xFFFE#16 0x10000#17) ∧
  decode 0x50C000000000F32C#64 = .ok (.write2 0xC000#16 0xF3#8 0x2C#8) ∧
  decode 0x8400000000000000#64 = .ok (.setint .input) ∧
  decode 0x9E00000000000000#64 = .ok (.pressb 0xE#4) ∧
  decode 0xD100000000000000#64 = .ok (.setime true) ∧
  decode 0x0000000000000000#64 = .error (.reservedOp 0#4) ∧
  decode 0x8800000000000000#64 = .error (.fixedBits 8#4) ∧
  decode 0x8500000000000000#64 = .error (.noSuchLine 5#4)

/-- R50: a line that assembles to an instruction gives a well-formed one with a word (the text details of log 19 are the
model's). -/
def Obligations.AssembledLineHasALegalWord : Prop :=
  ∀ (cs : List Char) (i : Instr), assembleLine cs = .ok (some i) →
    i.wellFormed = true ∧ ∃ w, encode i = some w

/-! ## The step and the fault state -/

/-- R5, R43: a step runs the command the next word of the port decodes to, with that word taken from the port. -/
def Obligations.StepRunsTheDecodedCommand : Prop :=
  ∀ (s : State) (w : Command) (rest : List Command) (i : Instr),
    s.fault = none → s.port = w :: rest → decode w = .ok i → step s = exec i { s with port := rest }

/-- R47: each of the three kinds of illegal word changes no state of the block, emits no event, answers
Refused(IllegalCommand), and the run keeps the mark of it. (That the word leaves the port and the run goes on
is the model's reading, log 3.) -/
def Obligations.StepRefusesAnIllegalWord : Prop :=
  ∀ (s : State) (w : Command) (rest : List Command),
    s.fault = none → s.port = w :: rest → IllegalKind w →
    step s = .next { s with port := rest, refused := true,
                            trace := s.trace ++ [.response .refusedIllegalCommand] }

/-- The model's choice, not a rule of the spec (log 2): with no command waiting, a step leaves the block as it is. -/
def Obligations.IdleStepChangesNothing : Prop :=
  ∀ s : State, s.fault = none → s.port = [] → step s = .next s

/-- R25: FAULT is none at construction, and a state with FAULT set accepts no further command (as the fault
`stuck`, log 4). -/
def Obligations.FaultedStateAcceptsNothing : Prop :=
  State.construction.fault = none ∧
  ∀ (s : State) (f : FaultRecord), s.fault = some f →
    step s = .fault (.stuck f) ∧ ∀ i : Instr, exec i s = .fault (.stuck f)

/-- R70, R71: the only forms that end with FAULT set, and the address they record. -/
def Obligations.OnlyListedFormsFault : Prop :=
  ∀ (i : Instr) (s t : State), exec i s = .next t → t.fault ≠ none →
    t.fault = some { cause := .addressOutOfRange, addr := 0x10000 } ∧
    (RaisesOutOfRange i ∨ (i = .checkint ∧ s.ime = true ∧ CallsIssue s RaisesOutOfRange))

/-! ## Reset and bootstrap (70_reset_and_hazards.md) -/

/-- R83: the state after construction and the state after BOOTSTRAP, over the parameters INIT_IMAGE and
BOOT_TABLE; BOOTSTRAP of the one gives the other. -/
def Obligations.ResetIsConstructionThenBootstrap : Prop :=
  exec (.bootstrap Config.bootTable) State.construction = .next State.reset ∧
  (State.construction.ime = false ∧ State.construction.btn = 0xF#4 ∧ State.construction.dpad = 0xF#4 ∧
    State.construction.fault = none ∧ ∀ a ≤ 0xFFFF, Memory.read State.construction.mem a = Config.initByte a) ∧
  (State.reset.ime = false ∧ State.reset.btn = 0xF#4 ∧ State.reset.dpad = 0xF#4 ∧ State.reset.fault = none ∧
    (∀ e ∈ Config.bootTable, Memory.read State.reset.mem e.1.toNat = e.2) ∧
    (∀ a ≤ 0xFFFF, (∀ e ∈ Config.bootTable, e.1.toNat ≠ a) → Memory.read State.reset.mem a = Config.initByte a) ∧
    ∀ a, a < 0x8000 ∨ a = 0xFF00 ∨ a = 0xFF46 → Memory.read State.reset.mem a = Config.initByte a)

/-- R84: BOOTSTRAP with a table that meets R85 stores its bytes and changes nothing else. -/
def Obligations.BootstrapStoresItsTable : Prop :=
  ∀ (table : List BootEntry) (s : State), s.fault = none → Memory.wf s.mem → bootTableOk table = true →
    ∃ t, exec (.bootstrap table) s = .next t ∧ t = { s with mem := t.mem } ∧
      (∀ e ∈ table, Memory.read t.mem e.1.toNat = e.2) ∧
      ∀ a, (∀ e ∈ table, e.1.toNat ≠ a) → Memory.read t.mem a = Memory.read s.mem a

/-- R84: the order of a table's entries does not matter. -/
def Obligations.BootstrapOrderDoesNotMatter : Prop :=
  ∀ (table table' : List BootEntry) (s : State), Memory.wf s.mem → bootTableOk table = true → table.Perm table' →
    exec (.bootstrap table) s = exec (.bootstrap table') s

/-- 95 B2, B3: a table that breaks R85 is rejected, in the model by name and before any entry (log 16). -/
def Obligations.BootstrapRejectsABadTable : Prop :=
  ∀ (table : List BootEntry) (s : State), s.fault = none → bootTableOk table = false →
    exec (.bootstrap table) s = .refused .invalidBootTable

/-! ## The AddressSpace commands (40_address_space.md) -/

/-- R52: READ, OP = 0x1 with A the address, answers the cell and changes no state. -/
def Obligations.ReadAnswersTheCell : Prop :=
  ∀ (a : U16) (s : State), s.fault = none →
    encode (.read a) = some (wordOf 0x1#4 0 a 0 0) ∧
    exec (.read a) s = .next { s with trace := s.trace ++ [.response (.data8 (Memory.read s.mem a.toNat))] }

/-- R53: READ16, OP = 0x2 with A the address, answers the little-endian pair; at 0xFFFF it raises
AddressOutOfRange(0x10000). -/
def Obligations.Read16AnswersThePair : Prop :=
  ∀ (a : U16) (s : State), s.fault = none →
    encode (.read16 a) = some (wordOf 0x2#4 0 a 0 0) ∧
    (a.toNat < 0xFFFF → ∃ v : U16,
      v.toNat = (Memory.read s.mem (a.toNat + 1)).toNat * 256 + (Memory.read s.mem a.toNat).toNat ∧
      exec (.read16 a) s = .next { s with trace := s.trace ++ [.response (.data16 v)] }) ∧
    (a.toNat = 0xFFFF → exec (.read16 a) s = .next
      { s with fault := some { cause := .addressOutOfRange, addr := 0x10000 },
               trace := s.trace ++ [.response (.fault { cause := .addressOutOfRange, addr := 0x10000 })] })

/-- R54: READRANGE, OP = 0x3 with A and E the bounds, answers the bytes of [start, end) in order, none when
start ≥ end; above 0x10000 it raises with no bytes. -/
def Obligations.ReadRangeAnswersTheBytes : Prop :=
  ∀ (a : U16) (e : U17) (s : State), s.fault = none →
    encode (.readrange a e) = some (wordOf 0x3#4 0 a e 0) ∧
    (e.toNat ≤ 0x10000 → ∃ bs : List Byte, bs.length = e.toNat - a.toNat ∧
      (∀ k < bs.length, bs[k]? = some (Memory.read s.mem (a.toNat + k))) ∧
      exec (.readrange a e) s = .next { s with trace := s.trace ++ [.response (.bytes bs)] }) ∧
    (0x10000 < e.toNat → exec (.readrange a e) s = .next
      { s with fault := some { cause := .addressOutOfRange, addr := 0x10000 },
               trace := s.trace ++ [.response (.fault { cause := .addressOutOfRange, addr := 0x10000 })] })

/-- R55, R28, R35: WRITE, OP = 0x4 with A the address and D the value, truncates the value, has exactly the effect
of the table of R35 at any address, and answers Done. -/
def Obligations.WriteHasTheDispatchedEffect : Prop :=
  ∀ (a v : U16) (s : State), s.fault = none → Memory.wf s.mem →
    encode (.write a v) = some (wordOf 0x4#4 0 a 0 v) ∧
    ∃ t, exec (.write a v) s = .next t ∧ t = { s with mem := t.mem, trace := s.trace ++ [.response .done] } ∧
      ∀ x, Memory.read t.mem x = cellAfterWrite s a.toNat (v.extractLsb' 0 8) x

/-- R56, R57: WRITE2 is OP = 0x5 and WRITE16 OP = 0x6, each with A the address and D = hi ++ lo. Below 0xFFFF they
are the write of the low byte at addr and then of the high byte
at addr + 1, each with its full effect; at 0xFFFF the low byte is written to IE and stays, and the high byte
raises AddressOutOfRange(0x10000). -/
def Obligations.TwoByteWriteIsTwoDispatchedWrites : Prop :=
  ∀ (a : U16) (hi lo : Byte) (v : U16) (s : State), s.fault = none → Memory.wf s.mem →
    v.toNat = hi.toNat * 256 + lo.toNat →
    encode (.write2 a hi lo) = some (wordOf 0x5#4 0 a 0 v) ∧ encode (.write16 a v) = some (wordOf 0x6#4 0 a 0 v) ∧
    (a.toNat < 0xFFFF → ∃ m t : State,
      (∀ x, Memory.read m.mem x = cellAfterWrite s a.toNat lo x) ∧ m = { s with mem := m.mem } ∧
      (∀ x, Memory.read t.mem x = cellAfterWrite m (a.toNat + 1) hi x) ∧
      t = { s with mem := t.mem, trace := s.trace ++ [.response .done] } ∧
      exec (.write2 a hi lo) s = .next t ∧ exec (.write16 a v) s = .next t) ∧
    (a.toNat = 0xFFFF → ∃ t : State,
      (∀ x, Memory.read t.mem x = if x = 0xFFFF then lo else Memory.read s.mem x) ∧
      t = { s with mem := t.mem, fault := some { cause := .addressOutOfRange, addr := 0x10000 },
                   trace := s.trace ++ [.response (.fault { cause := .addressOutOfRange, addr := 0x10000 })] } ∧
      exec (.write2 a hi lo) s = .next t ∧ exec (.write16 a v) s = .next t)

/-- R58, R88: the rows 0x7FFF, 0xFEFF, 0xFF00, 0xFF45 and 0xFF46 of the boundary table, for WRITE16. -/
def Obligations.SplitWritesFireTheirHandlers : Prop :=
  ∀ (hi lo : Byte) (v : U16) (s : State), s.fault = none → Memory.wf s.mem → v.toNat = hi.toNat * 256 + lo.toNat →
    (∃ t, exec (.write16 0x7FFF#16 v) s = .next t ∧
      ∀ x, Memory.read t.mem x = if x = 0x8000 then hi else Memory.read s.mem x) ∧
    (∃ t, exec (.write16 0xFEFF#16 v) s = .next t ∧
      ∀ x, Memory.read t.mem x = if x = 0xFEFF then lo else if x = 0xFF00 then joypValue hi s.btn s.dpad
        else Memory.read s.mem x) ∧
    (∃ t, exec (.write16 0xFF00#16 v) s = .next t ∧
      ∀ x, Memory.read t.mem x = if x = 0xFF00 then joypValue lo s.btn s.dpad else if x = 0xFF01 then hi
        else Memory.read s.mem x) ∧
    (∃ t, exec (.write16 0xFF45#16 v) s = .next t ∧
      ∀ x, Memory.read t.mem x = if x = 0xFF45 then lo else if 0xFE00 ≤ x ∧ x < 0xFEA0 then
        (if hi = 0xFF#8 ∧ x = 0xFE45 then lo else Memory.read s.mem (hi.toNat * 256 + (x - 0xFE00)))
        else Memory.read s.mem x) ∧
    (∃ t, exec (.write16 0xFF46#16 v) s = .next t ∧
      ∀ x, Memory.read t.mem x = if x = 0xFF47 then hi else if 0xFE00 ≤ x ∧ x < 0xFEA0 then
        Memory.read s.mem (lo.toNat * 256 + (x - 0xFE00)) else Memory.read s.mem x)

/-- R31: at every address that stores, a WRITE followed by a READ of the address answers the byte written. -/
def Obligations.WriteThenReadAnswersTheByte : Prop :=
  ∀ (a : U16) (v : U16) (s : State), s.fault = none → Memory.wf s.mem → 0x8000 ≤ a.toNat → a ≠ 0xFF00#16 →
    a ≠ 0xFF46#16 → ∃ t u, exec (.write a v) s = .next t ∧ exec (.read a) t = .next u ∧
      u.trace = s.trace ++ [.response .done, .response (.data8 (v.extractLsb' 0 8))]

/-- R32 on the domain of 90_conflicts.md C8: a 16-bit write is read back by the 16-bit read. -/
def Obligations.Write16ThenRead16AnswersTheValue : Prop :=
  ∀ (a : U16) (v : U16) (s : State), s.fault = none → Memory.wf s.mem → 0x8000 ≤ a.toNat → a.toNat < 0xFFFF →
    a ≠ 0xFF00#16 → a ≠ 0xFF46#16 → a ≠ 0xFEFF#16 → a ≠ 0xFF45#16 →
    ∃ t u, exec (.write16 a v) s = .next t ∧ exec (.read16 a) t = .next u ∧
      u.trace = s.trace ++ [.response .done, .response (.data16 v)]

/-- R29: RAWSTORE writes one cell with no dispatch, and has no other effect. -/
def Obligations.RawStoreWritesOneCell : Prop :=
  ∀ (a : U16) (b : Byte) (s : State), s.fault = none → Memory.wf s.mem → 0x8000 ≤ a.toNat →
    ∃ t, exec (.rawstore a b) s = .next t ∧ t = { s with mem := t.mem } ∧
      ∀ x, Memory.read t.mem x = if x = a.toNat then b else Memory.read s.mem x

/-- The model's choice (log 15): outside the domain 20_memory.md gives it, RAWSTORE is refused by name. -/
def Obligations.RawStoreBelowTheGuardIsRefused : Prop :=
  ∀ (a : U16) (b : Byte) (s : State), s.fault = none → a.toNat < 0x8000 →
    exec (.rawstore a b) s = .refused (.rawStoreOutsideDomain a)

/-! ## DMA (43_dma_engine.md) -/

/-- R68, R69 (1) and (2): DMA copies 160 bytes of page v, as they were, to OAM, and changes nothing else. -/
def Obligations.DmaCopiesThePage : Prop :=
  ∀ (v : Byte) (s : State), s.fault = none → Memory.wf s.mem →
    ∃ t, exec (.dma v) s = .next t ∧ t = { s with mem := t.mem } ∧
      (∀ k < 160, Memory.read t.mem (0xFE00 + k) = Memory.read s.mem (v.toNat * 256 + k)) ∧
      ∀ x, x < 0xFE00 ∨ 0xFEA0 ≤ x → Memory.read t.mem x = Memory.read s.mem x

/-- R68 (a): a DMA from page 0xFE leaves the block as it was. -/
def Obligations.DmaOfItsOwnPageChangesNothing : Prop :=
  ∀ s : State, s.fault = none → Memory.wf s.mem → exec (.dma 0xFE#8) s = .next s

/-- R69 (3): a second DMA of the same page, with that page and OAM unchanged in between, leaves the same OAM. -/
def Obligations.DmaTwiceLeavesTheSameOam : Prop :=
  ∀ (v : Byte) (s t u w : State), Memory.wf s.mem → Memory.wf u.mem → exec (.dma v) s = .next t →
    (∀ k < 256, Memory.read u.mem (v.toNat * 256 + k) = Memory.read t.mem (v.toNat * 256 + k)) →
    (∀ k < 160, Memory.read u.mem (0xFE00 + k) = Memory.read t.mem (0xFE00 + k)) →
    exec (.dma v) u = .next w → ∀ k < 160, Memory.read w.mem (0xFE00 + k) = Memory.read t.mem (0xFE00 + k)

/-! ## The joypad (42_input_controller.md) -/

/-- R66, R20: UPDATEJOYP stores bits 7:4 of the select byte, and in bits 3:0 the AND of the selected groups;
a set select bit selects its group. -/
def Obligations.UpdateJoypStoresTheMultiplexedValue : Prop :=
  ∀ (sel : Byte) (s : State), s.fault = none → Memory.wf s.mem →
    ∃ t, exec (.updatejoyp sel) s = .next t ∧ t = { s with mem := t.mem } ∧
      (∀ x, x ≠ 0xFF00 → Memory.read t.mem x = Memory.read s.mem x) ∧
      (∀ j, 4 ≤ j → j < 8 → (Memory.read t.mem 0xFF00).getLsbD j = sel.getLsbD j) ∧
      ∀ j < 4, (Memory.read t.mem 0xFF00).getLsbD j =
        ((!sel.getLsbD 4 || s.dpad.getLsbD j) && (!sel.getLsbD 5 || s.btn.getLsbD j))

/-- R64: PRESSB, OP = 0x9, and PRESSD, OP = 0xB, each with X the mask, clear in their group the bits that are 0
in the mask, and set IF bit 4, always. -/
def Obligations.PressClearsLinesAndRequestsInput : Prop :=
  ∀ (m : Nibble) (s : State), s.fault = none → Memory.wf s.mem →
    encode (.pressb m) = some (wordOf 0x9#4 m 0 0 0) ∧ encode (.pressd m) = some (wordOf 0xB#4 m 0 0 0) ∧
    ∃ (mem : Memory) (g h : Nibble),
      exec (.pressb m) s = .next { s with mem := mem, btn := g, trace := s.trace ++ [.response .done] } ∧
      exec (.pressd m) s = .next { s with mem := mem, dpad := h, trace := s.trace ++ [.response .done] } ∧
      (∀ j < 4, g.getLsbD j = (s.btn.getLsbD j && m.getLsbD j)) ∧
      (∀ j < 4, h.getLsbD j = (s.dpad.getLsbD j && m.getLsbD j)) ∧
      (∀ x, x ≠ 0xFF0F → Memory.read mem x = Memory.read s.mem x) ∧
      ∀ j < 8, (Memory.read mem 0xFF0F).getLsbD j = ((Memory.read s.mem 0xFF0F).getLsbD j || j == 4)

/-- R65: UNPRESSB, OP = 0xA, and UNPRESSD, OP = 0xC, each with X the mask, set in their group the bits that are 0
in the mask, and raise no interrupt. -/
def Obligations.UnpressSetsLinesOnly : Prop :=
  ∀ (m : Nibble) (s : State), s.fault = none →
    encode (.unpressb m) = some (wordOf 0xA#4 m 0 0 0) ∧ encode (.unpressd m) = some (wordOf 0xC#4 m 0 0 0) ∧
    ∃ g h : Nibble,
      exec (.unpressb m) s = .next { s with btn := g, trace := s.trace ++ [.response .done] } ∧
      exec (.unpressd m) s = .next { s with dpad := h, trace := s.trace ++ [.response .done] } ∧
      (∀ j < 4, g.getLsbD j = (s.btn.getLsbD j || !m.getLsbD j)) ∧
      ∀ j < 4, h.getLsbD j = (s.dpad.getLsbD j || !m.getLsbD j)

/-- R13, R15: BTN is changed by PRESSB and UNPRESSB only, DPAD by PRESSD and UNPRESSD only. -/
def Obligations.OnlyJoypadCommandsChangeTheMasks : Prop :=
  ∀ (i : Instr) (s t : State), exec i s = .next t →
    (t.btn ≠ s.btn → ∃ m, i = .pressb m ∨ i = .unpressb m) ∧
    (t.dpad ≠ s.dpad → ∃ m, i = .pressd m ∨ i = .unpressd m)

/-- R87: the joypad register is a snapshot: a command that changes 0xFF00 is a write that reaches it, UPDATEJOYP,
RAWSTORE at it, or a CHECKINT with IME true whose Calls are to issue a write that reaches it. -/
def Obligations.JoypRegisterIsASnapshot : Prop :=
  ∀ (i : Instr) (s t : State), exec i s = .next t →
    Memory.read t.mem 0xFF00 ≠ Memory.read s.mem 0xFF00 →
    WriteReaches i 0xFF00 ∨ (∃ sel, i = .updatejoyp sel) ∨ (∃ b, i = .rawstore 0xFF00#16 b) ∨
    (i = .checkint ∧ s.ime = true ∧ CallsIssue s (WriteReaches · 0xFF00))

/-! ## The interrupt controller (41_interrupt_controller.md) -/

/-- R62: SETINT, OP = 0x8 with X[2:0] the line, sets IF bit i, keeps every other bit, and does nothing else;
X[2:0] in 5..7 is refused. -/
def Obligations.SetintSetsOneRequestBit : Prop :=
  (∀ x : BitVec 3, 5 ≤ x.toNat → ∃ e, decode (wordOf 0x8#4 (0#1 ++ x) 0 0 0) = .error e) ∧
  ∀ (l : Line) (s : State), s.fault = none → Memory.wf s.mem →
    decode (wordOf 0x8#4 (BitVec.ofNat 4 (lineNumber l)) 0 0 0) = .ok (.setint l) ∧
    ∃ t, exec (.setint l) s = .next t ∧ t = { s with mem := t.mem, trace := s.trace ++ [.response .done] } ∧
      (∀ x, x ≠ 0xFF0F → Memory.read t.mem x = Memory.read s.mem x) ∧
      ∀ j < 8, (Memory.read t.mem 0xFF0F).getLsbD j = ((Memory.read s.mem 0xFF0F).getLsbD j || j == lineNumber l)

/-- R38: requests accumulate, whatever order they arrive in. -/
def Obligations.RequestsAccumulateInAnyOrder : Prop :=
  ∀ (l k : Line) (s : State), s.fault = none → Memory.wf s.mem →
    ∃ t u v w, exec (.setint l) s = .next t ∧ exec (.setint k) t = .next u ∧ exec (.setint k) s = .next v ∧
      exec (.setint l) v = .next w ∧ u = w

/-- R63: SETIME, OP = 0xD with X[0] the value, writes IME at once, and emits nothing. -/
def Obligations.SetimeWritesIme : Prop :=
  ∀ (b : Bool) (s : State), s.fault = none →
    decode (wordOf 0xD#4 (if b then 1 else 0) 0 0 0) = .ok (.setime b) ∧
    exec (.setime b) s = .next { s with ime := b, trace := s.trace ++ [.response .done] }

/-- R72: a pending request is cleared only by the dispatch of its line in a CHECKINT with IME true, which calls the
line's vector, or by a write that reaches 0xFF0F, at the port or among the commands the CHECKINT's Calls are to
issue. -/
def Obligations.OnlyDispatchOrAWriteClearsARequest : Prop :=
  ∀ (i : Instr) (s t : State) (j : Nat), Memory.wf s.mem → exec i s = .next t →
    (Memory.read s.mem 0xFF0F).getLsbD j = true → (Memory.read t.mem 0xFF0F).getLsbD j = false →
    (i = .checkint ∧ s.ime = true ∧
      ((∃ os l, t.trace = s.trace ++ os ∧ lineNumber l = j ∧ .call (lineVector l) ∈ os) ∨
        CallsIssue s (WriteReaches · 0xFF0F))) ∨
    WriteReaches i 0xFF0F ∨ (∃ b, i = .rawstore 0xFF0F#16 b) ∨
    ∃ table, i = .bootstrap table ∧ 0xFF0F#16 ∈ table.map (·.1)

/-- R18: the block never writes IE by itself: a command that changes 0xFFFF is a write that reaches it, RAWSTORE at
it, BOOTSTRAP of a table that names it, or a CHECKINT with IME true whose Calls are to issue a write that reaches
it. -/
def Obligations.TheBlockNeverWritesIeByItself : Prop :=
  ∀ (i : Instr) (s t : State), exec i s = .next t →
    Memory.read t.mem 0xFFFF ≠ Memory.read s.mem 0xFFFF →
    WriteReaches i 0xFFFF ∨ (∃ b, i = .rawstore 0xFFFF#16 b) ∨
    (∃ table, i = .bootstrap table ∧ 0xFFFF#16 ∈ table.map (·.1)) ∨
    (i = .checkint ∧ s.ime = true ∧ CallsIssue s (WriteReaches · 0xFFFF))

/-- R14: IME is written by CHECKINT, which only clears it, and by SETIME. -/
def Obligations.ImeHasTwoWriters : Prop :=
  ∀ (i : Instr) (s t : State), exec i s = .next t →
    t.ime = s.ime ∨ (i = .checkint ∧ t.ime = false) ∨ ∃ b, i = .setime b ∧ t.ime = b

/-- R59, R61 (e): CHECKINT completes from every running state, whatever the CPU collaborator's Calls issue; it
never changes BTN, DPAD or the port, and never sets IME. -/
def Obligations.CheckintAlwaysCompletes : Prop :=
  ∀ s : State, s.fault = none →
    ∃ t, exec .checkint s = .next t ∧ t.btn = s.btn ∧ t.dpad = s.dpad ∧ t.port = s.port ∧
      (t.ime = true → s.ime = true) ∧ (s.cpuCalls = [] → t.fault = none)

/-- R59 (a), (d): with no line pending and enabled, CHECKINT emits no event and changes no state. -/
def Obligations.CheckintWithoutRequestsDoesNothing : Prop :=
  ∀ s : State, s.fault = none →
    Memory.read s.mem 0xFFFF &&& Memory.read s.mem 0xFF0F &&& 0x1F#8 = 0#8 →
    exec .checkint s = .next { s with trace := s.trace ++ [.response .done] }

/-- R59 (b), R82, R92: with IME false, CHECKINT emits one Wake for each pending and enabled line, and nothing
else changes. -/
def Obligations.CheckintWithImeFalseOnlyWakes : Prop :=
  ∀ s : State, s.fault = none → s.ime = false →
    exec .checkint s = .next
      { s with trace := s.trace ++ (requestedLines s).map (fun _ => Output.wake) ++ [.response .done] }

/-- R59, R60, R74, R89: with IME true and Calls that issue no command, every pending and enabled line is woken
and dispatched in priority order; IF loses exactly their bits, and IME is false if one was dispatched. -/
def Obligations.CheckintDispatchesEveryRequestedLine : Prop :=
  ∀ s : State, s.fault = none → Memory.wf s.mem → s.ime = true → (∀ ws ∈ s.cpuCalls, ws = []) →
    ∃ t, exec .checkint s = .next t ∧
      t = { s with mem := t.mem, ime := (requestedLines s).isEmpty,
                   cpuCalls := s.cpuCalls.drop (requestedLines s).length,
                   trace := s.trace ++ (requestedLines s).flatMap (fun l => [Output.wake, .call (lineVector l)]) ++
                     [.response .done] } ∧
      (∀ x, x ≠ 0xFF0F → Memory.read t.mem x = Memory.read s.mem x) ∧
      ∀ j < 8, (Memory.read t.mem 0xFF0F).getLsbD j =
        ((Memory.read s.mem 0xFF0F).getLsbD j && !((requestedLines s).map lineNumber).contains j)

/-- The worked example of R59 (95 S7): IE = 0b00111, IF = 0b00101, IME true. -/
def Obligations.WorkedCheckintCallsTwoVectors : Prop :=
  ∀ s : State, s.fault = none → Memory.wf s.mem → s.ime = true → s.cpuCalls = [] →
    Memory.read s.mem 0xFFFF = 0b00111#8 → Memory.read s.mem 0xFF0F = 0b00101#8 →
    ∃ t, exec .checkint s = .next t ∧ Memory.read t.mem 0xFF0F = 0#8 ∧ t.ime = false ∧
      t.trace = s.trace ++ [.wake, .call 0x0040#16, .wake, .call 0x0050#16, .response .done]

/-- The worked program P4 of 95 (R59 f, R90): IE = IF = 0x05 and a first Call that writes 0x00 to 0xFFFF and 0x34 to
0xFFFE. `CheckintRereadsIeAndIfAfterACall` states it for any Call (the replies in the trace are the
model's form, log 12). -/
def Obligations.PushOntoIeStopsLaterLines : Prop :=
  ∀ (s : State) (rest : List (List Command)), s.fault = none → Memory.wf s.mem → s.ime = true →
    s.cpuCalls = [0x40FFFF0000000000#64, 0x40FFFE0000000034#64] :: rest →
    Memory.read s.mem 0xFFFF = 0x05#8 → Memory.read s.mem 0xFF0F = 0x05#8 →
    ∃ t, exec .checkint s = .next t ∧ Memory.read t.mem 0xFF0F = 0x04#8 ∧ Memory.read t.mem 0xFFFF = 0#8 ∧
      Memory.read t.mem 0xFFFE = 0x34#8 ∧ t.ime = false ∧ t.cpuCalls = rest ∧
      t.trace = s.trace ++ [.wake, .call 0x0040#16, .reply .done, .reply .done, .response .done]

/-- R59 (f), R73, R90: after the first Call of a CHECKINT, whatever it issues, the later lines are decided by IE and
IF as the Call left them; and a fault in it ends the CHECKINT there. `e` is the state after interrupt entry
(R74). The Calls after it are taken to issue no command. -/
def Obligations.CheckintRereadsIeAndIfAfterACall : Prop :=
  ∀ (s : State) (l : Line) (ls : List Line) (ws : List Command) (rest : List (List Command)), s.fault = none →
    Memory.wf s.mem → s.ime = true → requestedLines s = l :: ls → s.cpuCalls = ws :: rest → (∀ c ∈ rest, c = []) →
    ∃ e : State,
      e = { s with mem := e.mem, ime := false, cpuCalls := rest,
                   trace := s.trace ++ [.wake, .call (lineVector l)] } ∧
      (∀ x, x ≠ 0xFF0F → Memory.read e.mem x = Memory.read s.mem x) ∧
      (∀ j < 8, (Memory.read e.mem 0xFF0F).getLsbD j = ((Memory.read s.mem 0xFF0F).getLsbD j && j != lineNumber l)) ∧
      (∀ u, callCommands ws e = .ok () u → ∃ (t : State) (later : List Line), exec .checkint s = .next t ∧
        later = (requestedLines u).filter (fun k => decide (lineNumber l < lineNumber k)) ∧
        t = { u with mem := t.mem, cpuCalls := rest.drop later.length,
                     trace := u.trace ++ later.flatMap (fun k => [Output.wake, .call (lineVector k)]) ++
                       [.response .done] } ∧
        (∀ x, x ≠ 0xFF0F → Memory.read t.mem x = Memory.read u.mem x) ∧
        ∀ j < 8, (Memory.read t.mem 0xFF0F).getLsbD j =
          ((Memory.read u.mem 0xFF0F).getLsbD j && !(later.map lineNumber).contains j)) ∧
      ∀ (addr : Nat) (u : State), callCommands ws e = .raised addr u → exec .checkint s = .next
        { u with fault := some { cause := .addressOutOfRange, addr := addr },
                 trace := u.trace ++ [.response (.fault { cause := .addressOutOfRange, addr := addr })] }

/-- R73: whatever the Calls do, the vectors a CHECKINT calls are in priority order, each at most once. -/
def Obligations.CheckintCallsInPriorityOrder : Prop :=
  ∀ s t : State, exec .checkint s = .next t →
    ∃ os, t.trace = s.trace ++ os ∧
      (calledVectors os).Sublist [0x0040#16, 0x0048#16, 0x0050#16, 0x0058#16, 0x0060#16]

/-- One case of R73: with all five lines requested, a WRITE16 at 0xFFFF as the first command of the first Call ends
the CHECKINT before line 1, and the effects done stay (the trace's form is log 12). Every raising command of the
first Call is `RaisingCallCommandEndsTheCheckint`, every Call `NothingFollowsAFaultOfACall`. -/
def Obligations.CallFaultEndsTheCheckint : Prop :=
  ∀ (s : State) (v : U16) (ws : List Command) (rest : List (List Command)), s.fault = none → Memory.wf s.mem →
    s.ime = true → s.cpuCalls = ((0x60FFFF0000000000#64 ||| v.zeroExtend 64) :: ws) :: rest →
    Memory.read s.mem 0xFFFF = 0x1F#8 → Memory.read s.mem 0xFF0F = 0x1F#8 →
    ∃ t, exec .checkint s = .next t ∧ t.fault = some { cause := .addressOutOfRange, addr := 0x10000 } ∧
      t.ime = false ∧ Memory.read t.mem 0xFFFF = v.extractLsb' 0 8 ∧ Memory.read t.mem 0xFF0F = 0x1E#8 ∧
      t.trace = s.trace ++ [.wake, .call 0x0040#16,
        .reply (.fault { cause := .addressOutOfRange, addr := 0x10000 }),
        .response (.fault { cause := .addressOutOfRange, addr := 0x10000 })]

/-- R70, R73: a command of the first Call that raises, whichever of the four forms, at whatever position, and
whichever line is the first requested, ends the CHECKINT: the commands before it have run, none after it and no
later line (the trace's form is log 12). -/
def Obligations.RaisingCallCommandEndsTheCheckint : Prop :=
  ∀ (s : State) (l : Line) (ls : List Line) (before after : List Command) (w : Command) (i : Instr)
    (rest : List (List Command)), s.fault = none → s.ime = true → requestedLines s = l :: ls →
    s.cpuCalls = (before ++ w :: after) :: rest → decode w = .ok i → RaisesOutOfRange i →
    (∀ v ∈ before, ∀ k, decode v = .ok k → ¬ RaisesOutOfRange k) →
    ∃ (t : State) (rs : List Response), exec .checkint s = .next t ∧
      t.fault = some { cause := .addressOutOfRange, addr := 0x10000 } ∧ t.ime = false ∧ t.cpuCalls = rest ∧
      rs.length = before.length ∧ (∀ r ∈ rs, ∀ f, r ≠ .fault f) ∧
      t.trace = s.trace ++ [.wake, .call (lineVector l)] ++ rs.map .reply ++
        [.reply (.fault { cause := .addressOutOfRange, addr := 0x10000 }),
         .response (.fault { cause := .addressOutOfRange, addr := 0x10000 })]

/-- R73: in every CHECKINT, whichever Call faults, no Wake, no Call and no further command follows the fault; and
without such a fault the CHECKINT answers Done (the trace's form is log 12). -/
def Obligations.NothingFollowsAFaultOfACall : Prop :=
  ∀ s t : State, exec .checkint s = .next t → ∃ os : List Output, (∀ f, .reply (.fault f) ∉ os) ∧
    ((t.fault = none ∧ t.trace = s.trace ++ os ++ [.response .done]) ∨
      ∃ f, t.fault = some f ∧ t.trace = s.trace ++ os ++ [.reply (.fault f), .response (.fault f)])

/-- R61 (d): each of the six memory commands, issued in a Call, has the effect it has at the port, with a reply in
place of the response; a fault of it is raised to the CHECKINT; and a Call runs its commands in order. -/
def Obligations.CallCommandsHaveTheirFullEffect : Prop :=
  (∀ (s : State) (w : Command) (i : Instr), s.fault = none → decode w = .ok i →
    ((∃ a, i = .read a) ∨ (∃ a, i = .read16 a) ∨ (∃ a e, i = .readrange a e) ∨ (∃ a v, i = .write a v) ∨
      (∃ a hi lo, i = .write2 a hi lo) ∨ ∃ a v, i = .write16 a v) →
    ∃ (t : State) (r : Response), exec i s = .next t ∧ t.trace = s.trace ++ [.response r] ∧
      (t.fault = none → callCommand w s = .ok () { t with trace := s.trace ++ [.reply r] }) ∧
      ∀ f, t.fault = some f →
        callCommand w s = .raised f.addr { t with fault := none, trace := s.trace ++ [.reply r] }) ∧
  ∀ (s t : State) (w : Command) (ws : List Command), callCommands [] s = .ok () s ∧
    (callCommand w s = .ok () t → callCommands (w :: ws) s = callCommands ws t) ∧
    ∀ addr, callCommand w s = .raised addr t → callCommands (w :: ws) s = .raised addr t

/-- R61 (f): a CHECKINT, SETINT, SETIME or joypad command inside a Call, or an illegal word (R47), is refused: no
state of the block changes and the run is marked. (That the Call goes on is the model's reading, log 11.) -/
def Obligations.CallOutsideTheContractIsRefused : Prop :=
  ∀ (s : State) (w : Command),
    (decode w = .ok .checkint ∨ (∃ l, decode w = .ok (.setint l)) ∨ (∃ b, decode w = .ok (.setime b)) ∨
      (∃ m, decode w = .ok (.pressb m)) ∨ (∃ m, decode w = .ok (.unpressb m)) ∨ (∃ m, decode w = .ok (.pressd m)) ∨
      (∃ m, decode w = .ok (.unpressd m)) ∨ IllegalKind w) →
    callCommand w s = .ok () { s with refused := true, trace := s.trace ++ [.reply .refusedIllegalCommand] }

/-! ## The whole machine -/

/-- The invariant holds at reset, where FAULT is none and nothing has been refused. (That the mark of R47 is false at
reset is the model's, log 3.) -/
def Obligations.ResetMeetsTheInvariant : Prop :=
  Inv State.reset ∧ State.reset.fault = none ∧ State.reset.refused = false

/-- Every step keeps the invariant: canonical memory, INIT_IMAGE in every never-written cell (R30), FAULT's
address outside the space and answered (R25, R70), refusals marked (R47). -/
def Obligations.EveryStepKeepsTheInvariant : Prop :=
  ∀ s t : State, Inv s → step s = .next t → Inv t

/-- R30: a cell below 0x8000 and the cell 0xFF46 hold INIT_IMAGE's byte at reset, and no step, from any state,
changes one. -/
def Obligations.NoStepWritesRomOrTheDmaCell : Prop :=
  (∀ a, NeverWritten a → Memory.read State.reset.mem a = Config.initByte a) ∧
  ∀ s t : State, step s = .next t → ∀ a, NeverWritten a → Memory.read t.mem a = Memory.read s.mem a

/-- R49: each command produces exactly one response, after its events; an internal operation produces none. -/
def Obligations.EachCommandHasOneResponseLast : Prop :=
  ∀ (i : Instr) (s t : State), exec i s = .next t →
    (encode i ≠ none → ∃ (os : List Output) (r : Response),
      t.trace = s.trace ++ os ++ [.response r] ∧ os.all Output.isEvent = true ∧ r ≠ .refusedIllegalCommand) ∧
    (encode i = none → t.trace = s.trace)

/-- R5, R38: what a command does depends on the commands still waiting in no way, and it leaves them waiting (the
list of waiting commands is the model's representation of the command stream, log 1). -/
def Obligations.NoCommandDependsOnThePort : Prop :=
  ∀ (i : Instr) (s t : State) (ws : List Command), exec i s = .next t →
    exec i { s with port := ws } = .next { t with port := ws }
end

