-- ==== Sys2Proof/Laws/Decode.lean ====
section
/-! SUPPORT. The fields of a command word: what each field of an assembled word is, and when a word meets a
mask and match of the opcode map. -/

namespace Sys2Proof

/-- RSV, `w[39:33]` (30_encoding.md R43). -/
def rsvField (w : Command) : BitVec 7 := w.extractLsb' 33 7

/-- Every bit of an assembled word. -/
theorem getLsbD_wordOf (op x : Nibble) (a : U16) (e : U17) (d : U16) (i : Nat) (hi : i < 64) :
    (wordOf op x a e d).getLsbD i =
      if i < 16 then d.getLsbD i else if i < 33 then e.getLsbD (i - 16) else if i < 40 then false
      else if i < 56 then a.getLsbD (i - 40) else if i < 60 then x.getLsbD (i - 56)
      else op.getLsbD (i - 60) := by
  simp only [wordOf, BitVec.getLsbD_or, BitVec.getLsbD_shiftLeft, BitVec.getLsbD_setWidth,
    BitVec.truncate_eq_setWidth, hi, decide_true, Bool.true_and]
  by_cases h1 : i < 16
  · simp [show i < 60 by omega, show i < 56 by omega, show i < 40 by omega, h1]
  rw [BitVec.getLsbD_of_ge d i (by omega)]
  by_cases h2 : i < 33
  · simp [show i < 60 by omega, show i < 56 by omega, show i < 40 by omega, h1, h2, show i - 16 < 64 by omega]
  rw [BitVec.getLsbD_of_ge e (i - 16) (by omega)]
  by_cases h3 : i < 40
  · simp [show i < 60 by omega, show i < 56 by omega, h1, h2, h3]
  by_cases h4 : i < 56
  · simp [show i < 60 by omega, h1, h2, h3, h4, show i - 40 < 64 by omega]
  rw [BitVec.getLsbD_of_ge a (i - 40) (by omega)]
  by_cases h5 : i < 60
  · simp [h1, h2, h3, h4, h5, show i - 56 < 64 by omega]
  rw [BitVec.getLsbD_of_ge x (i - 56) (by omega)]
  simp [h1, h2, h3, h4, h5, show i - 60 < 64 by omega]

@[simp] theorem opField_wordOf (op x : Nibble) (a : U16) (e : U17) (d : U16) :
    opField (wordOf op x a e d) = op := by
  ext i hi
  simp only [opField, BitVec.getElem_extractLsb', getLsbD_wordOf _ _ _ _ _ (60 + i) (by omega)]
  simp [show ¬ 60 + i < 16 by omega, show ¬ 60 + i < 33 by omega, show ¬ 60 + i < 40 by omega,
    show ¬ 60 + i < 56 by omega, BitVec.getLsbD_eq_getElem hi]

@[simp] theorem xField_wordOf (op x : Nibble) (a : U16) (e : U17) (d : U16) :
    xField (wordOf op x a e d) = x := by
  ext i hi
  simp only [xField, BitVec.getElem_extractLsb', getLsbD_wordOf _ _ _ _ _ (56 + i) (by omega)]
  simp [show ¬ 56 + i < 16 by omega, show ¬ 56 + i < 33 by omega, show ¬ 56 + i < 40 by omega,
    show 56 + i < 60 by omega, BitVec.getLsbD_eq_getElem hi]

@[simp] theorem aField_wordOf (op x : Nibble) (a : U16) (e : U17) (d : U16) :
    aField (wordOf op x a e d) = a := by
  ext i hi
  simp only [aField, BitVec.getElem_extractLsb', getLsbD_wordOf _ _ _ _ _ (40 + i) (by omega)]
  simp [show ¬ 40 + i < 16 by omega, show ¬ 40 + i < 33 by omega, show 40 + i < 56 by omega,
    BitVec.getLsbD_eq_getElem hi]

@[simp] theorem rsvField_wordOf (op x : Nibble) (a : U16) (e : U17) (d : U16) :
    rsvField (wordOf op x a e d) = 0#7 := by
  ext i hi
  simp only [rsvField, BitVec.getElem_extractLsb', getLsbD_wordOf _ _ _ _ _ (33 + i) (by omega)]
  simp [show ¬ 33 + i < 16 by omega, show 33 + i < 40 by omega]

@[simp] theorem eField_wordOf (op x : Nibble) (a : U16) (e : U17) (d : U16) :
    eField (wordOf op x a e d) = e := by
  ext i hi
  simp only [eField, BitVec.getElem_extractLsb', getLsbD_wordOf _ _ _ _ _ (16 + i) (by omega)]
  simp [show 16 + i < 33 by omega, BitVec.getLsbD_eq_getElem hi]

@[simp] theorem dField_wordOf (op x : Nibble) (a : U16) (e : U17) (d : U16) :
    dField (wordOf op x a e d) = d := by
  ext i hi
  simp only [dField, BitVec.getElem_extractLsb', getLsbD_wordOf _ _ _ _ _ (0 + i) (by omega)]
  simp [show i < 16 by omega]

/-- A word whose reserved field is 0 is the word assembled from its fields. -/
theorem wordOf_fields {w : Command} (h : rsvField w = 0#7) :
    wordOf (opField w) (xField w) (aField w) (eField w) (dField w) = w := by
  apply BitVec.eq_of_getLsbD_eq
  intro i hi
  have rsv : 33 ≤ i → i < 40 → w.getLsbD i = false := fun h1 h2 => by
    have := congrArg (·.getLsbD (i - 33)) h
    simpa [rsvField, show i - 33 < 7 by omega, show 33 + (i - 33) = i by omega] using this
  rw [getLsbD_wordOf _ _ _ _ _ i hi]
  simp only [opField, xField, aField, eField, dField, BitVec.getLsbD_extractLsb']
  split
  · simp [*]
  · split
    · simp [show i - 16 < 17 by omega, show 16 + (i - 16) = i by omega]
    · split
      · rw [rsv (by omega) (by omega)]
      · split
        · simp [show i - 40 < 16 by omega, show 40 + (i - 40) = i by omega]
        · split
          · simp [show i - 56 < 4 by omega, show 56 + (i - 56) = i by omega]
          · simp [show i - 60 < 4 by omega, show 60 + (i - 60) = i by omega]

/-- A word is determined by its six fields (R43: the masks are disjoint and cover the word). -/
theorem word_ext {v w : Command} (h1 : opField v = opField w) (h2 : xField v = xField w) (h3 : aField v = aField w)
    (h4 : rsvField v = rsvField w) (h5 : eField v = eField w) (h6 : dField v = dField w) : v = w := by
  have bit : ∀ {n} {x y : BitVec n} (k : Nat), x = y → x.getLsbD k = y.getLsbD k := fun _ h => by rw [h]
  apply BitVec.eq_of_getLsbD_eq
  intro i hi
  simp only [opField, xField, aField, rsvField, eField, dField] at h1 h2 h3 h4 h5 h6
  rcases Nat.lt_or_ge i 16 with h | h
  · simpa [h] using bit i h6
  rcases Nat.lt_or_ge i 33 with h' | h'
  · simpa [show i - 16 < 17 by omega, show 16 + (i - 16) = i by omega] using bit (i - 16) h5
  rcases Nat.lt_or_ge i 40 with h'' | h''
  · simpa [show i - 33 < 7 by omega, show 33 + (i - 33) = i by omega] using bit (i - 33) h4
  rcases Nat.lt_or_ge i 56 with h3' | h3'
  · simpa [show i - 40 < 16 by omega, show 40 + (i - 40) = i by omega] using bit (i - 40) h3
  rcases Nat.lt_or_ge i 60 with h4' | h4'
  · simpa [show i - 56 < 4 by omega, show 56 + (i - 56) = i by omega] using bit (i - 56) h2
  · simpa [show i - 60 < 4 by omega, show 60 + (i - 60) = i by omega] using bit (i - 60) h1

@[simp] theorem hi8_joinBytes (hi lo : Byte) : hi8 (joinBytes hi lo) = hi := by
  apply BitVec.eq_of_getLsbD_eq
  intro i h
  have := BitVec.getLsbD_append (x := hi) (y := lo) (i := 8 + i)
  simp only [hi8, joinBytes, BitVec.getLsbD_extractLsb', h, decide_true, Bool.true_and]
  rw [this]
  simp

@[simp] theorem lo8_joinBytes (hi lo : Byte) : lo8 (joinBytes hi lo) = lo := by
  apply BitVec.eq_of_getLsbD_eq
  intro i h
  have := BitVec.getLsbD_append (x := hi) (y := lo) (i := 0 + i)
  simp only [lo8, joinBytes, BitVec.getLsbD_extractLsb', h, decide_true, Bool.true_and]
  rw [this]
  simp [h]

@[simp] theorem joinBytes_hi8_lo8 (v : U16) : joinBytes (hi8 v) (lo8 v) = v := by
  apply BitVec.eq_of_getLsbD_eq
  intro i h
  have := BitVec.getLsbD_append (x := hi8 v) (y := lo8 v) (i := i)
  simp only [joinBytes]
  rw [this]
  simp only [hi8, lo8, BitVec.getLsbD_extractLsb']
  by_cases h8 : i < 8
  · simp [h8]
  · simp [h8, show i - 8 < 8 by omega, show 8 + (i - 8) = i by omega]

/-- A 16-bit value as a number (R53: `hi * 256 + lo`). -/
theorem joinBytes_toNat (hi lo : Byte) : (joinBytes hi lo).toNat = hi.toNat * 256 + lo.toNat := by
  have := BitVec.toNat_append hi lo
  simp only [joinBytes]
  rw [this, Nat.shiftLeft_eq, ← Nat.shiftLeft_eq, ← Nat.shiftLeft_add_eq_or_of_lt lo.isLt, Nat.shiftLeft_eq]

/-- A row's test `w & mask == match`, field by field (R46). -/
theorem and_mask_iff (w m p : Command) : w &&& m = p ↔
    opField w &&& opField m = opField p ∧ xField w &&& xField m = xField p ∧ aField w &&& aField m = aField p ∧
    rsvField w &&& rsvField m = rsvField p ∧ eField w &&& eField m = eField p ∧ dField w &&& dField m = dField p := by
  have pull : ∀ k n : Nat, (w &&& m).extractLsb' k n = w.extractLsb' k n &&& m.extractLsb' k n := fun k n => by
    ext i hi; simp
  constructor
  · rintro rfl
    simp only [opField, xField, aField, rsvField, eField, dField, pull, and_self]
  · rintro ⟨h1, h2, h3, h4, h5, h6⟩
    apply word_ext <;> simp only [opField, xField, aField, rsvField, eField, dField, pull] at * <;> assumption

/-- A row answers its instruction or a fixed-bits refusal, and nothing else. -/
theorem tableRow_ok {w m p : Command} {i j : Instr} (h : tableRow w m p i = .ok j) : w &&& m = p ∧ i = j := by
  unfold tableRow at h
  split at h
  · exact ⟨‹_›, by simpa using h⟩
  · simp at h

theorem tableRow_of_match {w m p : Command} (i : Instr) (h : w &&& m = p) : tableRow w m p i = .ok i := by
  simp [tableRow, h]

/-- A line's bits name the line. -/
@[simp] theorem lineOfBits_bitsOfLine (l : Line) : lineOfBits (bitsOfLine l) = some l := by cases l <;> rfl

/-- Only a line's own bits name it. -/
theorem bitsOfLine_of_lineOfBits {x : BitVec 3} {l : Line} (h : lineOfBits x = some l) : bitsOfLine l = x := by
  have all : ∀ x : BitVec 3, ∀ l, lineOfBits x = some l → bitsOfLine l = x := by
    intro x l; cases l <;> revert x <;> decide
  exact all x l h

/-! ## The formats of R44: a word meets a row's mask and match exactly when it is assembled from its operands -/

@[simp] theorem and_ones4 (x : Nibble) : x &&& 15#4 = x := BitVec.and_allOnes
@[simp] theorem and_ones7 (x : BitVec 7) : x &&& 127#7 = x := BitVec.and_allOnes
@[simp] theorem and_ones16 (x : U16) : x &&& 65535#16 = x := BitVec.and_allOnes
@[simp] theorem and_ones17 (x : U17) : x &&& 131071#17 = x := BitVec.and_allOnes

/-- The fields of a mask, computed. -/
def fieldsOf (w : Command) : Nibble × Nibble × U16 × BitVec 7 × U17 × U16 :=
  (opField w, xField w, aField w, rsvField w, eField w, dField w)

/-- A row's test, with the mask's fields given. -/
theorem masked_iff {w m : Command} {op x : Nibble} {mo mx : Nibble} {ma : U16} {mr : BitVec 7} {me : U17} {md : U16}
    (hm : fieldsOf m = (mo, mx, ma, mr, me, md)) : w &&& m = wordOf op x 0 0 0 ↔
    opField w &&& mo = op ∧ xField w &&& mx = x ∧ aField w &&& ma = 0#16 ∧ rsvField w &&& mr = 0#7 ∧
      eField w &&& me = 0#17 ∧ dField w &&& md = 0#16 := by
  simp only [fieldsOf, Prod.mk.injEq] at hm
  obtain ⟨h1, h2, h3, h4, h5, h6⟩ := hm
  rw [and_mask_iff, h1, h2, h3, h4, h5, h6]
  simp

/-- A word is the assembled one when its fields are. -/
theorem eq_wordOf_iff {w : Command} {op x : Nibble} {a : U16} {e : U17} {d : U16} : w = wordOf op x a e d ↔
    opField w = op ∧ xField w = x ∧ aField w = a ∧ rsvField w = 0#7 ∧ eField w = e ∧ dField w = d := by
  constructor
  · rintro rfl; simp
  · rintro ⟨h1, h2, h3, h4, h5, h6⟩
    apply word_ext <;> simp [*]

theorem formatA_iff (w : Command) (op : Nibble) :
    w &&& 0xFF0000FFFFFFFFFF#64 = wordOf op 0 0 0 0 ↔ w = wordOf op 0 (aField w) 0 0 := by
  rw [masked_iff (m := 0xFF0000FFFFFFFFFF#64) (mo := 15#4) (mx := 15#4) (ma := 0#16) (mr := 127#7) (me := 131071#17)
    (md := 65535#16) (by decide), eq_wordOf_iff]
  simp

theorem formatAE_iff (w : Command) (op : Nibble) :
    w &&& 0xFF0000FE0000FFFF#64 = wordOf op 0 0 0 0 ↔ w = wordOf op 0 (aField w) (eField w) 0 := by
  rw [masked_iff (m := 0xFF0000FE0000FFFF#64) (mo := 15#4) (mx := 15#4) (ma := 0#16) (mr := 127#7) (me := 0#17)
    (md := 65535#16) (by decide), eq_wordOf_iff]
  simp

theorem formatAD_iff (w : Command) (op : Nibble) :
    w &&& 0xFF0000FFFFFF0000#64 = wordOf op 0 0 0 0 ↔ w = wordOf op 0 (aField w) 0 (dField w) := by
  rw [masked_iff (m := 0xFF0000FFFFFF0000#64) (mo := 15#4) (mx := 15#4) (ma := 0#16) (mr := 127#7) (me := 131071#17)
    (md := 0#16) (by decide), eq_wordOf_iff]
  simp

theorem formatN_iff (w : Command) (op : Nibble) :
    w &&& 0xFFFFFFFFFFFFFFFF#64 = wordOf op 0 0 0 0 ↔ w = wordOf op 0 0 0 0 := by
  rw [masked_iff (m := 0xFFFFFFFFFFFFFFFF#64) (mo := 15#4) (mx := 15#4) (ma := 65535#16) (mr := 127#7)
    (me := 131071#17) (md := 65535#16) (by decide), eq_wordOf_iff]
  simp

theorem formatX_iff (w : Command) (op : Nibble) :
    w &&& 0xF0FFFFFFFFFFFFFF#64 = wordOf op 0 0 0 0 ↔ w = wordOf op (xField w) 0 0 0 := by
  rw [masked_iff (m := 0xF0FFFFFFFFFFFFFF#64) (mo := 15#4) (mx := 0#4) (ma := 65535#16) (mr := 127#7)
    (me := 131071#17) (md := 65535#16) (by decide), eq_wordOf_iff]
  simp

/-- SETINT: the low three bits of X name the line. -/
theorem formatLine_iff (w : Command) (op : Nibble) : w &&& 0xF8FFFFFFFFFFFFFF#64 = wordOf op 0 0 0 0 ↔
    w = wordOf op (0#1 ++ (xField w).extractLsb' 0 3) 0 0 0 := by
  rw [masked_iff (m := 0xF8FFFFFFFFFFFFFF#64) (mo := 15#4) (mx := 8#4) (ma := 65535#16) (mr := 127#7)
    (me := 131071#17) (md := 65535#16) (by decide), eq_wordOf_iff]
  have hx : ∀ x : Nibble, x &&& 8#4 = 0#4 ↔ x = 0#1 ++ x.extractLsb' 0 3 := by decide
  simp [hx (xField w)]

/-- SETIME: bit 0 of X is the operand. -/
theorem formatBit_iff (w : Command) (op : Nibble) : w &&& 0xFEFFFFFFFFFFFFFF#64 = wordOf op 0 0 0 0 ↔
    w = wordOf op (if (xField w).getLsbD 0 then 1 else 0) 0 0 0 := by
  rw [masked_iff (m := 0xFEFFFFFFFFFFFFFF#64) (mo := 15#4) (mx := 14#4) (ma := 65535#16) (mr := 127#7)
    (me := 131071#17) (md := 65535#16) (by decide), eq_wordOf_iff]
  have hx : ∀ x : Nibble, x &&& 14#4 = 0#4 ↔ x = if x.getLsbD 0 then 1 else 0 := by decide
  have := hx (xField w)
  simp_all

end Sys2Proof
end

