-- ==== Sys2Proof/Laws/Memory.lean ====
section
/-! SUPPORT. The laws of the backing store: a read after a write, the canonical form kept by every
operation, and equality of memories from equality of their cells. -/

namespace Sys2Proof.Machine

/-- What a memory says of the cell `a`, unfolded once. -/
@[simp] theorem Memory.read_nil (a : Nat) : Memory.read [] a = Memory.unlisted := rfl

@[simp] theorem Memory.read_listed (k : Nat) (c : Byte) (m : Memory) (a : Nat) :
    Memory.read ((k, c) :: m) a = if a = k then c else Memory.read m a := rfl

/-- An address that no entry names reads as an unlisted one. -/
theorem Memory.read_of_not_mem {m : Memory} {a : Nat} (h : ∀ c ∈ m, c.1 ≠ a) :
    Memory.read m a = Memory.unlisted := by
  induction m with
  | nil => rfl
  | cons c m ih =>
    obtain ⟨k, v⟩ := c
    have hk : a ≠ k := fun e => h (k, v) (by simp) e.symm
    simp [hk, ih fun c hc => h c (by simp [hc])]

theorem Memory.mem_cons_cell {a : Nat} {b : Byte} {m : Memory} {c : Host.Cell}
    (h : c ∈ Memory.cons a b m) : (c = (a, b) ∧ b ≠ Memory.unlisted) ∨ c ∈ m := by
  unfold Memory.cons at h
  split at h
  · exact .inr h
  · rcases List.mem_cons.mp h with h | h
    · exact .inl ⟨h, ‹_›⟩
    · exact .inr h

/-- Reading through `cons`, where the rest names no address below or at `a`. -/
theorem Memory.read_cons_cell {a : Nat} {b : Byte} {m : Memory} (h : ∀ c ∈ m, a < c.1) (x : Nat) :
    Memory.read (Memory.cons a b m) x = if x = a then b else Memory.read m x := by
  unfold Memory.cons
  split
  · next hb =>
    split
    · next hx =>
      subst hx; rw [hb]
      exact Memory.read_of_not_mem fun c hc => Nat.ne_of_gt (h c hc)
    · rfl
  · simp

/-- An entry of a written memory is the one written or was there before. -/
theorem Memory.mem_write {m : Memory} {a : Nat} {b : Byte} {c : Host.Cell}
    (h : c ∈ Memory.write m a b) : (c = (a, b) ∧ b ≠ Memory.unlisted) ∨ c ∈ m := by
  induction m with
  | nil => exact Memory.mem_cons_cell h
  | cons d m ih =>
    obtain ⟨k, v⟩ := d
    unfold Memory.write at h
    split at h
    · exact Memory.mem_cons_cell h
    · split at h
      · exact (Memory.mem_cons_cell h).imp_right fun h => by simp [h]
      · rcases List.mem_cons.mp h with h | h
        · exact .inr (by simp [h])
        · exact (ih h).imp_right fun h => by simp [h]

/-- A canonical memory's tail is canonical, and its addresses lie above the head's. -/
theorem Memory.wf_tail {c : Host.Cell} {m : Memory} (h : Memory.wf (c :: m)) :
    Memory.wf m ∧ ∀ d ∈ m, c.1 < d.1 :=
  ⟨⟨(List.pairwise_cons.mp h.1).2, fun d hd => h.2 d (by simp [hd])⟩, (List.pairwise_cons.mp h.1).1⟩

theorem Memory.wf_cons_cell {a : Nat} {b : Byte} {m : Memory} (hm : Memory.wf m) (ha : a < 0x10000)
    (h : ∀ c ∈ m, a < c.1) : Memory.wf (Memory.cons a b m) := by
  unfold Memory.cons
  split
  · exact hm
  · next hb =>
    refine ⟨List.pairwise_cons.mpr ⟨h, hm.1⟩, fun c hc => ?_⟩
    rcases List.mem_cons.mp hc with rfl | hc
    · exact ⟨ha, hb⟩
    · exact hm.2 c hc

/-- A write keeps the canonical form. -/
theorem Memory.wf_write {m : Memory} {a : Nat} {b : Byte} (hm : Memory.wf m) (ha : a < 0x10000) :
    Memory.wf (Memory.write m a b) := by
  induction m with
  | nil => exact Memory.wf_cons_cell hm ha (by simp)
  | cons d m ih =>
    obtain ⟨k, v⟩ := d
    obtain ⟨ht, hlt⟩ := Memory.wf_tail hm
    unfold Memory.write
    split
    · next hak =>
      exact Memory.wf_cons_cell hm ha fun c hc => by
        rcases List.mem_cons.mp hc with rfl | hc
        · exact hak
        · exact Nat.lt_trans hak (hlt c hc)
    · split
      · next hak => subst hak; exact Memory.wf_cons_cell ht ha hlt
      · next h1 h2 =>
        refine ⟨List.pairwise_cons.mpr ⟨fun c hc => ?_, (ih ht).1⟩, fun c hc => ?_⟩
        · rcases Memory.mem_write hc with ⟨rfl, _⟩ | hc
          · exact Nat.lt_of_le_of_ne (Nat.le_of_not_lt h1) (Ne.symm h2)
          · exact hlt c hc
        · rcases List.mem_cons.mp hc with rfl | hc
          · exact hm.2 _ (by simp)
          · exact (ih ht).2 c hc

/-- A read after a write, at the address written and at every other one. -/
theorem Memory.read_write {m : Memory} (hm : Memory.wf m) (a : Nat) (b : Byte) (x : Nat) :
    Memory.read (Memory.write m a b) x = if x = a then b else Memory.read m x := by
  induction m with
  | nil => exact Memory.read_cons_cell (by simp) x
  | cons d m ih =>
    obtain ⟨k, v⟩ := d
    obtain ⟨ht, hlt⟩ := Memory.wf_tail hm
    unfold Memory.write
    split
    · next hak =>
      exact Memory.read_cons_cell (fun c hc => by
        rcases List.mem_cons.mp hc with rfl | hc
        · exact hak
        · exact Nat.lt_trans hak (hlt c hc)) x
    · split
      · next hak =>
        subst hak
        rw [Memory.read_cons_cell hlt]
        by_cases hx : x = a <;> simp [hx]
      · next h1 h2 =>
        simp only [Memory.read_listed, ih ht]
        by_cases hx : x = k
        · subst hx
          have : x ≠ a := fun e => h2 e.symm
          simp [this]
        · simp [hx]

@[simp] theorem Memory.read_write_same {m : Memory} (hm : Memory.wf m) (a : Nat) (b : Byte) :
    Memory.read (Memory.write m a b) a = b := by simp [Memory.read_write hm]

/-- A write leaves every other cell alone, in any memory, canonical or not. -/
theorem Memory.read_write_other (m : Memory) {a x : Nat} (b : Byte) (h : x ≠ a) :
    Memory.read (Memory.write m a b) x = Memory.read m x := by
  have hc : ∀ m : Memory, Memory.read (Memory.cons a b m) x = Memory.read m x := fun m => by
    unfold Memory.cons; split
    · rfl
    · simp [h]
  induction m with
  | nil => exact hc []
  | cons d m ih =>
    obtain ⟨k, v⟩ := d
    unfold Memory.write
    split
    · exact hc _
    · split
      · next hak => subst hak; simp [hc, h]
      · simp [ih]

/-- An address outside the address space reads as an unlisted one. -/
theorem Memory.read_out {m : Memory} (hm : Memory.wf m) {a : Nat} (h : 0x10000 ≤ a) :
    Memory.read m a = Memory.unlisted :=
  Memory.read_of_not_mem fun c hc => Nat.ne_of_lt (Nat.lt_of_lt_of_le (hm.2 c hc).1 h)

/-- Equal memories are equal data: canonical memories with equal cells are the same list. -/
theorem Memory.ext_read {m n : Memory} (hm : Memory.wf m) (hn : Memory.wf n)
    (h : ∀ a, Memory.read m a = Memory.read n a) : m = n := by
  induction m generalizing n with
  | nil =>
    cases n with
    | nil => rfl
    | cons d n =>
      obtain ⟨k, v⟩ := d
      have := h k
      exact absurd (by simpa using this.symm) (hn.2 (k, v) (by simp)).2
  | cons c m ih =>
    obtain ⟨j, u⟩ := c
    obtain ⟨htm, hltm⟩ := Memory.wf_tail hm
    have hu := (hm.2 (j, u) (by simp)).2
    cases n with
    | nil => exact absurd (by simpa using h j) hu
    | cons d n =>
      obtain ⟨k, v⟩ := d
      obtain ⟨htn, hltn⟩ := Memory.wf_tail hn
      have hv := (hn.2 (k, v) (by simp)).2
      have low : ∀ {p q : Nat} {w x : Byte} {l : Memory}, (∀ d ∈ l, q < d.1) → p < q → w ≠ Memory.unlisted →
          w ≠ Memory.read ((q, x) :: l) p := fun hl hpq hw e => hw (by
        rw [e]
        exact Memory.read_of_not_mem fun d hd => by
          rcases List.mem_cons.mp hd with rfl | hd
          · exact Nat.ne_of_gt hpq
          · exact Nat.ne_of_gt (Nat.lt_trans hpq (hl d hd)))
      have hjk : j = k := by
        rcases Nat.lt_trichotomy j k with hlt | he | hgt
        · exact absurd (by simpa using h j) (low (x := v) hltn hlt hu)
        · exact he
        · exact absurd (by simpa using (h k).symm) (low (x := u) hltm hgt hv)
      subst hjk
      have huv : u = v := by simpa using h j
      subst huv
      rw [ih htm htn fun a => ?_]
      by_cases ha : a = j
      · subst ha
        rw [Memory.read_of_not_mem fun d hd => Nat.ne_of_gt (hltm d hd),
          Memory.read_of_not_mem fun d hd => Nat.ne_of_gt (hltn d hd)]
      · simpa [ha] using h a

/-- Writing the byte already stored changes nothing (40_address_space.md R55). -/
theorem Memory.write_read_self {m : Memory} (hm : Memory.wf m) {a : Nat} (ha : a < 0x10000) :
    Memory.write m a (Memory.read m a) = m :=
  Memory.ext_read (Memory.wf_write hm ha) hm fun x => by
    rw [Memory.read_write hm]
    split
    · next h => rw [h]
    · rfl

/-- Writes to different cells commute. -/
theorem Memory.write_comm {m : Memory} (hm : Memory.wf m) {a b : Nat} (ha : a < 0x10000) (hb : b < 0x10000)
    (hab : a ≠ b) (x y : Byte) :
    Memory.write (Memory.write m a x) b y = Memory.write (Memory.write m b y) a x :=
  Memory.ext_read (Memory.wf_write (Memory.wf_write hm ha) hb) (Memory.wf_write (Memory.wf_write hm hb) ha) fun i => by
    rw [Memory.read_write (Memory.wf_write hm ha), Memory.read_write (Memory.wf_write hm hb), Memory.read_write hm,
      Memory.read_write hm]
    by_cases h1 : i = a <;> by_cases h2 : i = b <;> simp_all

/-- A later write to the same cell replaces an earlier one. -/
theorem Memory.write_write {m : Memory} (hm : Memory.wf m) {a : Nat} (ha : a < 0x10000) (x y : Byte) :
    Memory.write (Memory.write m a x) a y = Memory.write m a y :=
  Memory.ext_read (Memory.wf_write (Memory.wf_write hm ha) ha) (Memory.wf_write hm ha) fun i => by
    rw [Memory.read_write (Memory.wf_write hm ha), Memory.read_write hm, Memory.read_write hm]
    split <;> rfl

/-! ## The image of a byte function -/

theorem Memory.wf_ofBytes (f : Nat → Byte) {n : Nat} (hn : n ≤ 0x10000) : Memory.wf (Memory.ofBytes f n) := by
  constructor
  · unfold Memory.ofBytes
    refine List.pairwise_filterMap.mpr ((List.pairwise_lt_range (n := n)).imp fun {x y} hxy p hp q hq => ?_)
    split at hp <;> split at hq <;> simp_all
    obtain ⟨rfl⟩ := hp; obtain ⟨rfl⟩ := hq; exact hxy
  · intro c hc
    unfold Memory.ofBytes at hc
    obtain ⟨a, ha, hc⟩ := List.mem_filterMap.mp hc
    split at hc
    · simp at hc
    · next hb =>
      obtain rfl := Option.some.inj hc
      exact ⟨Nat.lt_of_lt_of_le (List.mem_range.mp ha) hn, hb⟩

/-- The image reads as the function it was made from. -/
theorem Memory.read_ofBytes (f : Nat → Byte) (n a : Nat) :
    Memory.read (Memory.ofBytes f n) a = if a < n then f a else Memory.unlisted := by
  have append : ∀ (l r : Memory), (∀ c ∈ r, c.1 ≠ a) → Memory.read (l ++ r) a = Memory.read l a := by
    intro l r hr
    induction l with
    | nil => simpa using Memory.read_of_not_mem hr
    | cons d l ih => obtain ⟨k, v⟩ := d; simp [ih]
  have last : ∀ (l : Memory) (v : Byte), (∀ c ∈ l, c.1 ≠ a) → Memory.read (l ++ [(a, v)]) a = v := by
    intro l v hl
    induction l with
    | nil => simp
    | cons d l ih =>
      obtain ⟨k, w⟩ := d
      have hk : a ≠ k := fun e => hl (k, w) (by simp) e.symm
      simp [hk, ih fun c hc => hl c (by simp [hc])]
  have below : ∀ n, ∀ c ∈ Memory.ofBytes f n, c.1 < n := by
    intro n c hc
    unfold Memory.ofBytes at hc
    obtain ⟨x, hx, hc⟩ := List.mem_filterMap.mp hc
    split at hc
    · simp at hc
    · obtain rfl := Option.some.inj hc; exact List.mem_range.mp hx
  induction n with
  | zero => simp [Memory.ofBytes]
  | succ n ih =>
    have step : Memory.ofBytes f (n + 1) =
        Memory.ofBytes f n ++ (if f n = Memory.unlisted then [] else [(n, f n)]) := by
      simp only [Memory.ofBytes, List.range_succ, List.filterMap_append]
      by_cases h : f n = Memory.unlisted <;> simp [h]
    rw [step]
    by_cases hn : f n = Memory.unlisted
    · simp only [hn, if_true, List.append_nil, ih]
      by_cases h1 : a < n
      · simp [h1, Nat.lt_succ_of_lt h1]
      · by_cases h2 : a = n
        · subst h2; simp [hn]
        · have : ¬ a < n + 1 := by omega
          simp [h1, this]
    · simp only [hn, if_false]
      by_cases h2 : a = n
      · subst h2
        rw [last _ _ fun c hc => Nat.ne_of_lt (below a c hc)]
        simp
      · rw [append _ _ (by intro c hc; simp at hc; subst hc; exact fun e => h2 e.symm), ih]
        have : (a < n + 1) ↔ a < n := by omega
        simp [this]

end Sys2Proof.Machine
end

