-- ==== Sys2Proof/Laws/State.lean ====
section
/-! SUPPORT. What each field update does to each field of the state: one lemma per field per update. -/

namespace Sys2Proof.Machine

/-! ### `State.setMem` -/

@[simp] theorem State.setMem_mem (s : State) (x : Memory) : (s.setMem x).mem = x := rfl
@[simp] theorem State.setMem_ime (s : State) (x : Memory) : (s.setMem x).ime = s.ime := rfl
@[simp] theorem State.setMem_btn (s : State) (x : Memory) : (s.setMem x).btn = s.btn := rfl
@[simp] theorem State.setMem_dpad (s : State) (x : Memory) : (s.setMem x).dpad = s.dpad := rfl
@[simp] theorem State.setMem_fault (s : State) (x : Memory) : (s.setMem x).fault = s.fault := rfl
@[simp] theorem State.setMem_refused (s : State) (x : Memory) : (s.setMem x).refused = s.refused := rfl
@[simp] theorem State.setMem_trace (s : State) (x : Memory) : (s.setMem x).trace = s.trace := rfl
@[simp] theorem State.setMem_port (s : State) (x : Memory) : (s.setMem x).port = s.port := rfl
@[simp] theorem State.setMem_cpuCalls (s : State) (x : Memory) : (s.setMem x).cpuCalls = s.cpuCalls := rfl

/-! ### `State.setIme` -/

@[simp] theorem State.setIme_mem (s : State) (x : Bool) : (s.setIme x).mem = s.mem := rfl
@[simp] theorem State.setIme_ime (s : State) (x : Bool) : (s.setIme x).ime = x := rfl
@[simp] theorem State.setIme_btn (s : State) (x : Bool) : (s.setIme x).btn = s.btn := rfl
@[simp] theorem State.setIme_dpad (s : State) (x : Bool) : (s.setIme x).dpad = s.dpad := rfl
@[simp] theorem State.setIme_fault (s : State) (x : Bool) : (s.setIme x).fault = s.fault := rfl
@[simp] theorem State.setIme_refused (s : State) (x : Bool) : (s.setIme x).refused = s.refused := rfl
@[simp] theorem State.setIme_trace (s : State) (x : Bool) : (s.setIme x).trace = s.trace := rfl
@[simp] theorem State.setIme_port (s : State) (x : Bool) : (s.setIme x).port = s.port := rfl
@[simp] theorem State.setIme_cpuCalls (s : State) (x : Bool) : (s.setIme x).cpuCalls = s.cpuCalls := rfl

/-! ### `State.setBtn` -/

@[simp] theorem State.setBtn_mem (s : State) (x : Nibble) : (s.setBtn x).mem = s.mem := rfl
@[simp] theorem State.setBtn_ime (s : State) (x : Nibble) : (s.setBtn x).ime = s.ime := rfl
@[simp] theorem State.setBtn_btn (s : State) (x : Nibble) : (s.setBtn x).btn = x := rfl
@[simp] theorem State.setBtn_dpad (s : State) (x : Nibble) : (s.setBtn x).dpad = s.dpad := rfl
@[simp] theorem State.setBtn_fault (s : State) (x : Nibble) : (s.setBtn x).fault = s.fault := rfl
@[simp] theorem State.setBtn_refused (s : State) (x : Nibble) : (s.setBtn x).refused = s.refused := rfl
@[simp] theorem State.setBtn_trace (s : State) (x : Nibble) : (s.setBtn x).trace = s.trace := rfl
@[simp] theorem State.setBtn_port (s : State) (x : Nibble) : (s.setBtn x).port = s.port := rfl
@[simp] theorem State.setBtn_cpuCalls (s : State) (x : Nibble) : (s.setBtn x).cpuCalls = s.cpuCalls := rfl

/-! ### `State.setDpad` -/

@[simp] theorem State.setDpad_mem (s : State) (x : Nibble) : (s.setDpad x).mem = s.mem := rfl
@[simp] theorem State.setDpad_ime (s : State) (x : Nibble) : (s.setDpad x).ime = s.ime := rfl
@[simp] theorem State.setDpad_btn (s : State) (x : Nibble) : (s.setDpad x).btn = s.btn := rfl
@[simp] theorem State.setDpad_dpad (s : State) (x : Nibble) : (s.setDpad x).dpad = x := rfl
@[simp] theorem State.setDpad_fault (s : State) (x : Nibble) : (s.setDpad x).fault = s.fault := rfl
@[simp] theorem State.setDpad_refused (s : State) (x : Nibble) : (s.setDpad x).refused = s.refused := rfl
@[simp] theorem State.setDpad_trace (s : State) (x : Nibble) : (s.setDpad x).trace = s.trace := rfl
@[simp] theorem State.setDpad_port (s : State) (x : Nibble) : (s.setDpad x).port = s.port := rfl
@[simp] theorem State.setDpad_cpuCalls (s : State) (x : Nibble) : (s.setDpad x).cpuCalls = s.cpuCalls := rfl

/-! ### `State.setFault` -/

@[simp] theorem State.setFault_mem (s : State) (x : FaultRecord) : (s.setFault x).mem = s.mem := rfl
@[simp] theorem State.setFault_ime (s : State) (x : FaultRecord) : (s.setFault x).ime = s.ime := rfl
@[simp] theorem State.setFault_btn (s : State) (x : FaultRecord) : (s.setFault x).btn = s.btn := rfl
@[simp] theorem State.setFault_dpad (s : State) (x : FaultRecord) : (s.setFault x).dpad = s.dpad := rfl
@[simp] theorem State.setFault_fault (s : State) (x : FaultRecord) : (s.setFault x).fault = some x := rfl
@[simp] theorem State.setFault_refused (s : State) (x : FaultRecord) : (s.setFault x).refused = s.refused := rfl
@[simp] theorem State.setFault_trace (s : State) (x : FaultRecord) : (s.setFault x).trace = s.trace := rfl
@[simp] theorem State.setFault_port (s : State) (x : FaultRecord) : (s.setFault x).port = s.port := rfl
@[simp] theorem State.setFault_cpuCalls (s : State) (x : FaultRecord) : (s.setFault x).cpuCalls = s.cpuCalls := rfl

/-! ### `State.markRefused` -/

@[simp] theorem State.markRefused_mem (s : State) : (s.markRefused).mem = s.mem := rfl
@[simp] theorem State.markRefused_ime (s : State) : (s.markRefused).ime = s.ime := rfl
@[simp] theorem State.markRefused_btn (s : State) : (s.markRefused).btn = s.btn := rfl
@[simp] theorem State.markRefused_dpad (s : State) : (s.markRefused).dpad = s.dpad := rfl
@[simp] theorem State.markRefused_fault (s : State) : (s.markRefused).fault = s.fault := rfl
@[simp] theorem State.markRefused_refused (s : State) : (s.markRefused).refused = true := rfl
@[simp] theorem State.markRefused_trace (s : State) : (s.markRefused).trace = s.trace := rfl
@[simp] theorem State.markRefused_port (s : State) : (s.markRefused).port = s.port := rfl
@[simp] theorem State.markRefused_cpuCalls (s : State) : (s.markRefused).cpuCalls = s.cpuCalls := rfl

/-! ### `State.setPort` -/

@[simp] theorem State.setPort_mem (s : State) (x : List Command) : (s.setPort x).mem = s.mem := rfl
@[simp] theorem State.setPort_ime (s : State) (x : List Command) : (s.setPort x).ime = s.ime := rfl
@[simp] theorem State.setPort_btn (s : State) (x : List Command) : (s.setPort x).btn = s.btn := rfl
@[simp] theorem State.setPort_dpad (s : State) (x : List Command) : (s.setPort x).dpad = s.dpad := rfl
@[simp] theorem State.setPort_fault (s : State) (x : List Command) : (s.setPort x).fault = s.fault := rfl
@[simp] theorem State.setPort_refused (s : State) (x : List Command) : (s.setPort x).refused = s.refused := rfl
@[simp] theorem State.setPort_trace (s : State) (x : List Command) : (s.setPort x).trace = s.trace := rfl
@[simp] theorem State.setPort_port (s : State) (x : List Command) : (s.setPort x).port = x := rfl
@[simp] theorem State.setPort_cpuCalls (s : State) (x : List Command) : (s.setPort x).cpuCalls = s.cpuCalls := rfl

/-! ### `State.setCalls` -/

@[simp] theorem State.setCalls_mem (s : State) (x : List (List Command)) : (s.setCalls x).mem = s.mem := rfl
@[simp] theorem State.setCalls_ime (s : State) (x : List (List Command)) : (s.setCalls x).ime = s.ime := rfl
@[simp] theorem State.setCalls_btn (s : State) (x : List (List Command)) : (s.setCalls x).btn = s.btn := rfl
@[simp] theorem State.setCalls_dpad (s : State) (x : List (List Command)) : (s.setCalls x).dpad = s.dpad := rfl
@[simp] theorem State.setCalls_fault (s : State) (x : List (List Command)) : (s.setCalls x).fault = s.fault := rfl
@[simp] theorem State.setCalls_refused (s : State) (x : List (List Command)) : (s.setCalls x).refused = s.refused := rfl
@[simp] theorem State.setCalls_trace (s : State) (x : List (List Command)) : (s.setCalls x).trace = s.trace := rfl
@[simp] theorem State.setCalls_port (s : State) (x : List (List Command)) : (s.setCalls x).port = s.port := rfl
@[simp] theorem State.setCalls_cpuCalls (s : State) (x : List (List Command)) : (s.setCalls x).cpuCalls = x := rfl

/-! ### `State.push` -/

@[simp] theorem State.push_mem (s : State) (x : Output) : (s.push x).mem = s.mem := rfl
@[simp] theorem State.push_ime (s : State) (x : Output) : (s.push x).ime = s.ime := rfl
@[simp] theorem State.push_btn (s : State) (x : Output) : (s.push x).btn = s.btn := rfl
@[simp] theorem State.push_dpad (s : State) (x : Output) : (s.push x).dpad = s.dpad := rfl
@[simp] theorem State.push_fault (s : State) (x : Output) : (s.push x).fault = s.fault := rfl
@[simp] theorem State.push_refused (s : State) (x : Output) : (s.push x).refused = s.refused := rfl
@[simp] theorem State.push_trace (s : State) (x : Output) : (s.push x).trace = s.trace ++ [x] := rfl
@[simp] theorem State.push_port (s : State) (x : Output) : (s.push x).port = s.port := rfl
@[simp] theorem State.push_cpuCalls (s : State) (x : Output) : (s.push x).cpuCalls = s.cpuCalls := rfl

/-! ### The state after reset -/

@[simp] theorem construction_mem : State.construction.mem = initImage := rfl
@[simp] theorem reset_mem : State.reset.mem =
    Config.bootTable.foldl (fun m e => Memory.write m e.1.toNat e.2) initImage := rfl
@[simp] theorem construction_ime : State.construction.ime = false := rfl
@[simp] theorem reset_ime : State.reset.ime = false := rfl
@[simp] theorem construction_btn : State.construction.btn = 0xF#4 := rfl
@[simp] theorem reset_btn : State.reset.btn = 0xF#4 := rfl
@[simp] theorem construction_dpad : State.construction.dpad = 0xF#4 := rfl
@[simp] theorem reset_dpad : State.reset.dpad = 0xF#4 := rfl
@[simp] theorem construction_fault : State.construction.fault = none := rfl
@[simp] theorem reset_fault : State.reset.fault = none := rfl
@[simp] theorem construction_refused : State.construction.refused = false := rfl
@[simp] theorem reset_refused : State.reset.refused = false := rfl
@[simp] theorem construction_trace : State.construction.trace = [] := rfl
@[simp] theorem reset_trace : State.reset.trace = [] := rfl
@[simp] theorem construction_port : State.construction.port = [] := rfl
@[simp] theorem reset_port : State.reset.port = [] := rfl
@[simp] theorem construction_cpuCalls : State.construction.cpuCalls = [] := rfl
@[simp] theorem reset_cpuCalls : State.reset.cpuCalls = [] := rfl

/-- A memory update that writes the memory already there changes nothing. -/
theorem State.setMem_self (s : State) : s.setMem s.mem = s := rfl

@[simp] theorem State.setMem_setMem (s : State) (m n : Memory) : (s.setMem m).setMem n = s.setMem n := rfl

/-- Two states with equal fields are equal. -/
theorem State.ext_fields {s t : State} (h1 : s.mem = t.mem) (h2 : s.ime = t.ime) (h3 : s.btn = t.btn)
    (h4 : s.dpad = t.dpad) (h5 : s.fault = t.fault) (h6 : s.refused = t.refused) (h7 : s.trace = t.trace)
    (h8 : s.port = t.port) (h9 : s.cpuCalls = t.cpuCalls) : s = t := by
  cases s; cases t; simp_all

end Sys2Proof.Machine
end

