-- ==== Sys2Proof/Laws/Ops.lean ====
section
/-! SUPPORT. One spec lemma for each shared operation: results, the access primitives, the write dispatcher,
DMA, and the two-byte and range forms. -/

namespace Sys2Proof.Machine

/-! ## Results -/

@[simp] theorem andThen_ok {α β : Type} (a : α) (s : State) (f : α → State → Res β) :
    (Res.ok a s).andThen f = f a s := rfl

@[simp] theorem andThen_raised {α β : Type} (addr : Nat) (s : State) (f : α → State → Res β) :
    (Res.raised addr s : Res α).andThen f = .raised addr s := rfl

@[simp] theorem thenDone_ok (u : Unit) (s : State) : thenDone (.ok u s) = .ok .done s := rfl

@[simp] theorem thenDone_raised (addr : Nat) (s : State) : thenDone (.raised addr s) = .raised addr s := rfl

@[simp] theorem complete_ok (r : Response) (s : State) : complete (.ok r s) = .next (s.push (.response r)) := rfl

@[simp] theorem complete_raised (addr : Nat) (s : State) : complete (.raised addr s) = .next (takeFault addr s) := rfl

@[simp] theorem settle_ok (u : Unit) (s : State) : settle (.ok u s) = .next s := rfl

@[simp] theorem settle_raised (addr : Nat) (s : State) : settle (.raised addr s) = .next (takeFault addr s) := rfl

/-- A command is accepted while FAULT is none. -/
theorem accept_of_none {s : State} (h : s.fault = none) (run : State → Host.Outcome State Fault Refusal) :
    accept s run = run s := by simp [accept, h]

/-- With FAULT set, the run is stuck. -/
theorem accept_of_some {s : State} {f : FaultRecord} (h : s.fault = some f)
    (run : State → Host.Outcome State Fault Refusal) : accept s run = .fault (.stuck f) := by simp [accept, h]

/-- A next state comes from an accepted command only. -/
theorem accept_next {s t : State} {run : State → Host.Outcome State Fault Refusal} (h : accept s run = .next t) :
    s.fault = none ∧ run s = .next t := by
  unfold accept at h
  split at h
  · exact ⟨‹_›, h⟩
  · simp at h

/-- A command ends in its response or in its fault. -/
theorem complete_next {r : Res Response} {t : State} (h : complete r = .next t) :
    (∃ a s, r = .ok a s ∧ t = s.push (.response a)) ∨ (∃ addr s, r = .raised addr s ∧ t = takeFault addr s) := by
  cases r with
  | ok a s => exact .inl ⟨a, s, rfl, by simpa using h.symm⟩
  | raised addr s => exact .inr ⟨addr, s, rfl, by simpa using h.symm⟩

/-- Taking the fault sets FAULT and answers it; every other field is kept. -/
theorem takeFault_fields (addr : Nat) (s : State) :
    (takeFault addr s).fault = some (outOfRange addr) ∧
    (takeFault addr s).trace = s.trace ++ [.response (.fault (outOfRange addr))] ∧
    (takeFault addr s).mem = s.mem ∧ (takeFault addr s).ime = s.ime ∧ (takeFault addr s).btn = s.btn ∧
    (takeFault addr s).dpad = s.dpad ∧ (takeFault addr s).refused = s.refused ∧ (takeFault addr s).port = s.port ∧
    (takeFault addr s).cpuCalls = s.cpuCalls :=
  ⟨rfl, rfl, rfl, rfl, rfl, rfl, rfl, rfl, rfl⟩

/-! ## The access primitives -/

theorem memRead_inRange {a : Nat} (h : a ≤ 0xFFFF) (s : State) :
    memRead a s = .ok (Memory.read s.mem a) s := by simp [memRead, Nat.not_lt.mpr h]

theorem memRead_outOfRange {a : Nat} (h : 0xFFFF < a) (s : State) : memRead a s = .raised a s := by
  simp [memRead, h]

@[simp] theorem memRead_u16 (a : U16) (s : State) : memRead a.toNat s = .ok (Memory.read s.mem a.toNat) s :=
  memRead_inRange (by have := a.isLt; omega) s

@[simp] theorem memRead_if (s : State) : memRead ifAddr s = .ok (Memory.read s.mem ifAddr) s :=
  memRead_inRange (by decide) s

@[simp] theorem memRead_ie (s : State) : memRead ieAddr s = .ok (Memory.read s.mem ieAddr) s :=
  memRead_inRange (by decide) s

theorem rawStore_eq (a : Nat) (b : Byte) (s : State) : rawStore a b s = s.setMem (Memory.write s.mem a b) := rfl

theorem updateJoyp_eq (sel : Byte) (s : State) :
    updateJoyp sel s = s.setMem (Memory.write s.mem 0xFF00 (joypValue sel s.btn s.dpad)) := rfl

/-! ## The write dispatcher, step by step (20_memory.md R28) -/

variable (h : Byte → State → Res Unit) (value : Nat) (s : State)

theorem writeDispatch_rom {a : Nat} (ha : a < 0x8000) : writeDispatch h a value s = .ok () s := by
  simp [writeDispatch, ha]

theorem writeDispatch_joyp : writeDispatch h 0xFF00 value s = .ok () (updateJoyp (BitVec.ofNat 8 value) s) := by
  simp [writeDispatch]

theorem writeDispatch_dma : writeDispatch h 0xFF46 value s = h (BitVec.ofNat 8 value) s := by
  simp [writeDispatch]

theorem writeDispatch_plain {a : Nat} (h1 : 0x8000 ≤ a) (h2 : a ≠ 0xFF00) (h3 : a ≠ 0xFF46) (h4 : a ≤ 0xFFFF) :
    writeDispatch h a value s = .ok () (rawStore a (BitVec.ofNat 8 value) s) := by
  simp [writeDispatch, Nat.not_lt.mpr h1, h2, h3, Nat.not_lt.mpr h4]

theorem writeDispatch_outOfRange {a : Nat} (ha : 0xFFFF < a) : writeDispatch h a value s = .raised a s := by
  simp [writeDispatch, show ¬ a < 0x8000 by omega, show a ≠ 0xFF00 by omega, show a ≠ 0xFF46 by omega, ha]

theorem memWrite_rom {a : Nat} (ha : a < 0x8000) : memWrite a value s = .ok () s := writeDispatch_rom _ _ _ ha

theorem memWrite_joyp : memWrite 0xFF00 value s = .ok () (updateJoyp (BitVec.ofNat 8 value) s) :=
  writeDispatch_joyp _ _ _

theorem memWrite_dma : memWrite 0xFF46 value s = dmaTransfer (BitVec.ofNat 8 value) s := writeDispatch_dma _ _ _

theorem memWrite_plain {a : Nat} (h1 : 0x8000 ≤ a) (h2 : a ≠ 0xFF00) (h3 : a ≠ 0xFF46) (h4 : a ≤ 0xFFFF) :
    memWrite a value s = .ok () (rawStore a (BitVec.ofNat 8 value) s) := writeDispatch_plain _ _ _ h1 h2 h3 h4

theorem memWrite_outOfRange {a : Nat} (ha : 0xFFFF < a) : memWrite a value s = .raised a s :=
  writeDispatch_outOfRange _ _ _ ha

@[simp] theorem memWrite_if : memWrite ifAddr value s = .ok () (rawStore ifAddr (BitVec.ofNat 8 value) s) :=
  memWrite_plain _ _ (by decide) (by decide) (by decide) (by decide)

@[simp] theorem memWrite_ie : memWrite ieAddr value s = .ok () (rawStore ieAddr (BitVec.ofNat 8 value) s) :=
  memWrite_plain _ _ (by decide) (by decide) (by decide) (by decide)

omit h value s

/-- DMA's own writes go through the same dispatcher as every other write: at its destinations the handler
makes no difference (43_dma_engine.md R68 d). -/
theorem dma_write_is_memWrite (h : Byte → State → Res Unit) {k : Nat} (hk : k < 160) (value : Nat) (s : State) :
    writeDispatch h (0xFE00 + k) value s = memWrite (0xFE00 + k) value s := by
  rw [writeDispatch_plain _ _ _ (by omega) (by omega) (by omega) (by omega),
    memWrite_plain _ _ (by omega) (by omega) (by omega) (by omega)]

/-! ## DMA -/

/-- The memory after DMA's last `n` bytes from index `k` on. -/
@[irreducible] def dmaMemory (src n k : Nat) (m : Memory) : Memory :=
  match n with
  | 0 => m
  | n + 1 => dmaMemory src n (k + 1) (Memory.write m (0xFE00 + k) (Memory.read m (src + k)))

/-- DMA cannot fault from a source inside the space, and changes memory only. -/
theorem dmaCopy_eq {src n k : Nat} (hs : src ≤ 0xFF00) (hk : k + n ≤ 160) (s : State) :
    dmaCopy src n k s = .ok () (s.setMem (dmaMemory src n k s.mem)) := by
  induction n generalizing k s with
  | zero => rw [dmaMemory]; rfl
  | succ n ih =>
    have hr := memRead_inRange (a := src + k) (by omega) s
    have hw := writeDispatch_plain (fun _ s => .ok () s) (Memory.read s.mem (src + k)).toNat s
      (a := 0xFE00 + k) (by omega) (by omega) (by omega) (by omega)
    simp only [dmaCopy, hr, andThen_ok, hw, BitVec.ofNat_toNat, BitVec.setWidth_eq]
    rw [ih (by omega), dmaMemory, rawStore_eq, State.setMem_setMem, State.setMem_mem]

theorem wf_dmaMemory {src n k : Nat} (hk : k + n ≤ 160) {m : Memory} (hm : Memory.wf m) :
    Memory.wf (dmaMemory src n k m) := by
  induction n generalizing k m with
  | zero => rwa [dmaMemory]
  | succ n ih => rw [dmaMemory]; exact ih (by omega) (Memory.wf_write hm (by omega))

/-- What DMA from a page leaves in memory: the source bytes as they were, in OAM. -/
theorem read_dmaMemory {page n k : Nat} (hk : k + n ≤ 160) {m : Memory} (hm : Memory.wf m) (a : Nat) :
    Memory.read (dmaMemory (page * 256) n k m) a =
      if 0xFE00 + k ≤ a ∧ a < 0xFE00 + k + n then Memory.read m (page * 256 + (a - 0xFE00)) else Memory.read m a := by
  induction n generalizing k m with
  | zero => simp [dmaMemory, show ¬ (0xFE00 + k ≤ a ∧ a < 0xFE00 + k) by omega]
  | succ n ih =>
    simp only [dmaMemory]
    rw [ih (by omega) (Memory.wf_write hm (by omega)), Memory.read_write hm, Memory.read_write hm]
    rcases Nat.lt_trichotomy a (0xFE00 + k) with h | h | h
    · simp [show ¬ (0xFE00 + (k + 1) ≤ a ∧ a < 0xFE00 + (k + 1) + n) by omega,
        show ¬ (0xFE00 + k ≤ a ∧ a < 0xFE00 + k + (n + 1)) by omega, show a ≠ 0xFE00 + k by omega]
    · subst h
      simp [show 0xFE00 + k - 0xFE00 = k by omega]
    · by_cases hn : a < 0xFE00 + k + (n + 1)
      · simp [show 0xFE00 + (k + 1) ≤ a ∧ a < 0xFE00 + (k + 1) + n by omega,
          show 0xFE00 + k ≤ a ∧ a < 0xFE00 + k + (n + 1) by omega,
          show page * 256 + (a - 0xFE00) ≠ 0xFE00 + k by omega]
      · simp [show ¬ (0xFE00 + (k + 1) ≤ a ∧ a < 0xFE00 + (k + 1) + n) by omega,
          show ¬ (0xFE00 + k ≤ a ∧ a < 0xFE00 + k + (n + 1)) by omega, show a ≠ 0xFE00 + k by omega]

/-- DMA writes no cell outside OAM, in any memory, canonical or not. -/
theorem read_dmaMemory_other {src n k : Nat} (hk : k + n ≤ 160) (m : Memory) {a : Nat}
    (ha : a < 0xFE00 ∨ 0xFEA0 ≤ a) : Memory.read (dmaMemory src n k m) a = Memory.read m a := by
  induction n generalizing k m with
  | zero => rw [dmaMemory]
  | succ n ih =>
    simp only [dmaMemory]
    rw [ih (by omega), Memory.read_write_other _ _ (by omega)]

/-- DMA (R68): it cannot fault, and changes memory only. -/
theorem dmaTransfer_eq (v : Byte) (s : State) :
    dmaTransfer v s = .ok () (s.setMem (dmaMemory (v.toNat * 256) 160 0 s.mem)) :=
  dmaCopy_eq (by have := v.isLt; omega) (by omega) s

/-! ## What a memory operation can do -/

/-- The cells no operation ever writes (20_memory.md R30), and the addresses that are no cells. -/
def Untouchable (a : Nat) : Prop := a < 0x8000 ∨ a = 0xFF46 ∨ 0xFFFF < a

/-- `t` differs from `s` in memory only, keeps the canonical form, and keeps every untouchable cell. -/
structure MemOnly (s t : State) : Prop where
  same : t = s.setMem t.mem
  wf : Memory.wf s.mem → Memory.wf t.mem
  keeps : ∀ a, Untouchable a → Memory.read t.mem a = Memory.read s.mem a

theorem MemOnly.refl (s : State) : MemOnly s s := ⟨rfl, id, fun _ _ => rfl⟩

theorem MemOnly.trans {s t u : State} (h1 : MemOnly s t) (h2 : MemOnly t u) : MemOnly s u :=
  ⟨by rw [h2.same, h1.same]; rfl, h2.wf ∘ h1.wf, fun a ha => (h2.keeps a ha).trans (h1.keeps a ha)⟩

/-- Every field but memory is kept. -/
theorem MemOnly.fields {s t : State} (h : MemOnly s t) : t.ime = s.ime ∧ t.btn = s.btn ∧ t.dpad = s.dpad ∧
    t.fault = s.fault ∧ t.refused = s.refused ∧ t.trace = s.trace ∧ t.port = s.port ∧ t.cpuCalls = s.cpuCalls := by
  rw [h.same]; exact ⟨rfl, rfl, rfl, rfl, rfl, rfl, rfl, rfl⟩

theorem memOnly_rawStore {a : Nat} (h1 : 0x8000 ≤ a) (h2 : a ≠ 0xFF46) (h3 : a ≤ 0xFFFF) (b : Byte) (s : State) :
    MemOnly s (rawStore a b s) :=
  ⟨rfl, fun hm => Memory.wf_write hm (by omega), fun x hx => Memory.read_write_other _ _ (by
    rcases hx with hx | hx | hx <;> omega)⟩

theorem memOnly_updateJoyp (sel : Byte) (s : State) : MemOnly s (updateJoyp sel s) :=
  memOnly_rawStore (by decide) (by decide) (by decide) _ s

theorem memOnly_dma (v : Byte) (s : State) : MemOnly s (s.setMem (dmaMemory (v.toNat * 256) 160 0 s.mem)) :=
  ⟨by rw [State.setMem_mem], wf_dmaMemory (by omega), fun x hx => read_dmaMemory_other (by omega) _ (by
    rcases hx with hx | hx | hx <;> omega)⟩

/-- MemWrite: it raises exactly above 0xFFFF, with nothing done; otherwise it changes memory only. -/
theorem memWrite_cases (a value : Nat) (s : State) :
    (0xFFFF < a ∧ memWrite a value s = .raised a s) ∨
    (a ≤ 0xFFFF ∧ ∃ t, memWrite a value s = .ok () t ∧ MemOnly s t) := by
  rcases Nat.lt_or_ge 0xFFFF a with h | h
  · exact .inl ⟨h, memWrite_outOfRange _ _ h⟩
  refine .inr ⟨h, ?_⟩
  by_cases h1 : a < 0x8000
  · exact ⟨s, memWrite_rom _ _ h1, .refl s⟩
  by_cases h2 : a = 0xFF00
  · subst h2; exact ⟨_, memWrite_joyp _ _, memOnly_updateJoyp _ s⟩
  by_cases h3 : a = 0xFF46
  · subst h3; exact ⟨_, (memWrite_dma _ _).trans (dmaTransfer_eq _ _), memOnly_dma _ s⟩
  · exact ⟨_, memWrite_plain _ _ (by omega) h2 h3 h, memOnly_rawStore (by omega) h3 h _ s⟩

/-- A write to an in-range address completes. -/
theorem memWrite_ok {a : Nat} (h : a ≤ 0xFFFF) (value : Nat) (s : State) :
    ∃ t, memWrite a value s = .ok () t ∧ MemOnly s t := by
  rcases memWrite_cases a value s with ⟨h', _⟩ | ⟨_, h'⟩
  · omega
  · exact h'

/-- A plain write stores its byte (20_memory.md R31). -/
theorem read_memWrite_plain {s t : State} (hm : Memory.wf s.mem) {a value : Nat} (h1 : 0x8000 ≤ a) (h2 : a ≠ 0xFF00)
    (h3 : a ≠ 0xFF46) (h4 : a ≤ 0xFFFF) (h : memWrite a value s = .ok () t) (x : Nat) :
    Memory.read t.mem x = if x = a then BitVec.ofNat 8 value else Memory.read s.mem x := by
  rw [memWrite_plain _ _ h1 h2 h3 h4] at h
  obtain rfl : rawStore a (BitVec.ofNat 8 value) s = t := by injection h
  exact Memory.read_write hm _ _ _

/-- A write leaves every cell above OAM alone but the one it names. -/
theorem read_memWrite_other {a v x : Nat} {s t : State} (h : memWrite a v s = .ok () t) (hx : 0xFEA0 ≤ x)
    (ha : x ≠ a) : Memory.read t.mem x = Memory.read s.mem x := by
  by_cases h0 : 0xFFFF < a
  · rw [memWrite_outOfRange _ _ h0] at h; cases h
  by_cases h1 : a < 0x8000
  · rw [memWrite_rom _ _ h1] at h; cases h; rfl
  by_cases h2 : a = 0xFF00
  · subst h2; rw [memWrite_joyp] at h; cases h; exact Memory.read_write_other _ _ ha
  by_cases h3 : a = 0xFF46
  · subst h3; rw [memWrite_dma, dmaTransfer_eq] at h; cases h
    exact read_dmaMemory_other (by omega) _ (by omega)
  · rw [memWrite_plain _ _ (by omega) h2 h3 (by omega)] at h; cases h; exact Memory.read_write_other _ _ ha

/-! ## The two-byte and range forms -/

theorem memRead16_inRange {a : Nat} (h : a < 0xFFFF) (s : State) :
    memRead16 a s = .ok (joinBytes (Memory.read s.mem (a + 1)) (Memory.read s.mem a)) s := by
  simp only [memRead16, memRead_inRange (a := a) (by omega), memRead_inRange (a := a + 1) (by omega), andThen_ok]

theorem memRead16_top (s : State) : memRead16 0xFFFF s = .raised 0x10000 s := by
  simp only [memRead16, memRead_inRange (a := 0xFFFF) (by omega), memRead_outOfRange (a := 0xFFFF + 1) (by omega),
    andThen_ok, andThen_raised]

/-- A two-byte write: it raises only at 0xFFFF, with the low byte already written. -/
theorem memWrite16_cases {a : Nat} (ha : a ≤ 0xFFFF) (lo hi : Byte) (s : State) :
    (a = 0xFFFF ∧ memWrite16 a lo hi s = .raised 0x10000 (rawStore 0xFFFF lo s)) ∨
    (a < 0xFFFF ∧ ∃ t u, memWrite a lo.toNat s = .ok () t ∧ MemOnly s t ∧
      memWrite (a + 1) hi.toNat t = .ok () u ∧ MemOnly t u ∧ memWrite16 a lo hi s = .ok () u) := by
  rcases Nat.lt_or_ge a 0xFFFF with h | h
  · obtain ⟨t, h1, m1⟩ := memWrite_ok ha lo.toNat s
    obtain ⟨u, h2, m2⟩ := memWrite_ok (a := a + 1) (by omega) hi.toNat t
    exact .inr ⟨h, t, u, h1, m1, h2, m2, by simp only [memWrite16, h1, andThen_ok, h2]⟩
  · obtain rfl : a = 0xFFFF := by omega
    refine .inl ⟨rfl, ?_⟩
    have h1 := memWrite_plain lo.toNat s (a := 0xFFFF) (by omega) (by omega) (by omega) (by omega)
    simp only [memWrite16, h1, andThen_ok, memWrite_outOfRange _ _ (a := 0xFFFF + 1) (by omega), BitVec.ofNat_toNat,
      BitVec.setWidth_eq]

/-- A range of in-range bytes, ascending. -/
theorem memReadBytes_eq {n a : Nat} (h : a + n ≤ 0x10000) (s : State) :
    memReadBytes n a s = .ok ((List.range' a n).map (Memory.read s.mem)) s := by
  induction n generalizing a with
  | zero => rfl
  | succ n ih =>
    simp only [memReadBytes, memRead_inRange (a := a) (by omega), andThen_ok, ih (a := a + 1) (by omega)]
    simp [List.range'_succ]

/-- READRANGE's bytes, or its fault (R54). -/
theorem memReadRange_eq (start stop : Nat) (s : State) :
    memReadRange start stop s =
      if 0x10000 < stop then .raised 0x10000 s
      else .ok ((List.range' start (stop - start)).map (Memory.read s.mem)) s := by
  unfold memReadRange
  split
  · rfl
  · rcases Nat.lt_or_ge start stop with h | h
    · exact memReadBytes_eq (by omega) s
    · simp [show stop - start = 0 by omega, memReadBytes]

end Sys2Proof.Machine
end

