-- ==== Sys2Proof/Laws/Commands.lean ====
section
/-! SUPPORT. One spec lemma for each command body, and for CHECKINT's parts: what a Call, a line and a list of
lines can do. -/

namespace Sys2Proof.Machine

/-! ## The memory commands -/

theorem readCommand_eq (a : U16) (s : State) :
    readCommand a s = .ok (.data8 (Memory.read s.mem a.toNat)) s := by simp [readCommand]

theorem read16Command_inRange {a : U16} (h : a.toNat < 0xFFFF) (s : State) :
    read16Command a s = .ok (.data16 (joinBytes (Memory.read s.mem (a.toNat + 1)) (Memory.read s.mem a.toNat))) s := by
  simp only [read16Command, memRead16_inRange h, andThen_ok]

theorem read16Command_top {a : U16} (h : a.toNat = 0xFFFF) (s : State) : read16Command a s = .raised 0x10000 s := by
  simp only [read16Command, h, memRead16_top, andThen_raised]

theorem readrangeCommand_eq (start : U16) (stop : U17) (s : State) :
    readrangeCommand start stop s =
      if 0x10000 < stop.toNat then .raised 0x10000 s
      else .ok (.bytes ((List.range' start.toNat (stop.toNat - start.toNat)).map (Memory.read s.mem))) s := by
  unfold readrangeCommand
  rw [memReadRange_eq]
  split <;> rfl

/-- WRITE completes from every state and changes memory only. -/
theorem writeCommand_ok (a v : U16) (s : State) :
    ∃ t, writeCommand a v s = .ok .done t ∧ memWrite a.toNat v.toNat s = .ok () t ∧ MemOnly s t := by
  obtain ⟨t, h, m⟩ := memWrite_ok (a := a.toNat) (by have := a.isLt; omega) v.toNat s
  exact ⟨t, by rw [writeCommand, h]; rfl, h, m⟩

/-- How a command body or a part of it ends: with every state it can leave satisfying `R`; a fault names
0x10000, the first address outside the space. -/
def Ends {α : Type} (r : Res α) (R : State → Prop) : Prop :=
  (∃ a t, r = .ok a t ∧ R t) ∨ (∃ t, r = .raised 0x10000 t ∧ R t)

theorem Ends.ok {α : Type} {a : α} {t : State} {R : State → Prop} (h : R t) : Ends (.ok a t) R :=
  .inl ⟨a, t, rfl, h⟩

theorem Ends.imp {α : Type} {r : Res α} {R Q : State → Prop} (h : Ends r R) (f : ∀ t, R t → Q t) : Ends r Q :=
  Or.imp (fun ⟨a, t, e, h⟩ => ⟨a, t, e, f t h⟩) (fun ⟨t, e, h⟩ => ⟨t, e, f t h⟩) h

theorem Ends.andThen {α β : Type} {r : Res α} {f : α → State → Res β} {R Q : State → Prop} (h : Ends r R)
    (ok : ∀ a t, R t → Ends (f a t) Q) (raised : ∀ t, R t → Q t) : Ends (r.andThen f) Q := by
  rcases h with ⟨a, t, rfl, h⟩ | ⟨t, rfl, h⟩
  · exact ok a t h
  · exact .inr ⟨t, rfl, raised t h⟩

theorem Ends.and {α : Type} {r : Res α} {R Q : State → Prop} (h : Ends r R) (h' : Ends r Q) :
    Ends r fun t => R t ∧ Q t := by
  rcases h with ⟨a, t, rfl, h⟩ | ⟨t, rfl, h⟩ <;> rcases h' with ⟨_, _, e, h'⟩ | ⟨_, e, h'⟩ <;> cases e
  · exact .ok ⟨h, h'⟩
  · exact .inr ⟨t, rfl, h, h'⟩

/-- The addresses a raised fault can name. -/
theorem Ends.raised {α : Type} {r : Res α} {R : State → Prop} (h : Ends r R) {addr : Nat} {t : State}
    (e : r = .raised addr t) : addr = 0x10000 ∧ R t := by
  rcases h with ⟨a, t', rfl, h⟩ | ⟨t', rfl, h⟩
  · cases e
  · cases e; exact ⟨rfl, h⟩

theorem memWrite16_ends (a : U16) (lo hi : Byte) (s : State) : Ends (memWrite16 a.toNat lo hi s) (MemOnly s) := by
  rcases memWrite16_cases (a := a.toNat) (by have := a.isLt; omega) lo hi s with
    ⟨_, h⟩ | ⟨_, t, u, _, m1, _, m2, h⟩
  · exact .inr ⟨_, h, memOnly_rawStore (by omega) (by omega) (by omega) _ s⟩
  · exact .inl ⟨_, u, h, m1.trans m2⟩

/-- What every memory command can do: memory only, and a fault at 0x10000 only. -/
theorem memoryCommand_ends {i : Instr} {act : State → Res Response} (h : memoryCommand i = some act) (s : State) :
    Ends (act s) (MemOnly s) := by
  cases i <;> simp only [memoryCommand, Option.some.injEq, reduceCtorEq] at h <;> subst h
  case read a => rw [readCommand_eq]; exact .ok (.refl s)
  case read16 a =>
    rcases Nat.lt_or_ge a.toNat 0xFFFF with h | h
    · rw [read16Command_inRange h]; exact .ok (.refl s)
    · exact .inr ⟨s, read16Command_top (by have := a.isLt; omega) s, .refl s⟩
  case readrange start stop =>
    rw [readrangeCommand_eq]; split
    · exact .inr ⟨s, rfl, .refl s⟩
    · exact .ok (.refl s)
  case write a v => obtain ⟨t, h, _, m⟩ := writeCommand_ok a v s; rw [h]; exact .ok m
  case write2 a hi lo => exact (memWrite16_ends a lo hi s).andThen (fun _ _ m => .ok m) fun _ m => m
  case write16 a v => exact (memWrite16_ends a (lo8 v) (hi8 v) s).andThen (fun _ _ m => .ok m) fun _ m => m

/-- A memory command that completes answers data or Done: no fault and no refusal. -/
theorem memoryCommand_answers {i : Instr} {act : State → Res Response} (h : memoryCommand i = some act) {s t : State}
    {r : Response} (hr : act s = .ok r t) : r ≠ .refusedIllegalCommand ∧ ∀ f, r ≠ .fault f := by
  have done : ∀ {x : Res Unit}, thenDone x = .ok r t → r = .done := fun {x} e => by
    cases x with
    | ok u s => simp only [thenDone_ok, Res.ok.injEq] at e; exact e.1.symm
    | raised a s => simp at e
  cases i <;> simp only [memoryCommand, Option.some.injEq, reduceCtorEq] at h <;> subst h
  case read a => rw [readCommand_eq] at hr; cases hr; simp
  case read16 a =>
    rcases Nat.lt_or_ge a.toNat 0xFFFF with h | h
    · rw [read16Command_inRange h] at hr; cases hr; simp
    · rw [read16Command_top (by have := a.isLt; omega)] at hr; cases hr
  case readrange start stop => rw [readrangeCommand_eq] at hr; split at hr <;> cases hr; simp
  case write a v => rw [done (x := memWrite a.toNat v.toNat s) hr]; simp
  case write2 a hi lo => rw [done (x := memWrite16 a.toNat lo hi s) hr]; simp
  case write16 a v => rw [done (x := memWrite16 a.toNat (lo8 v) (hi8 v) s) hr]; simp

/-- A two-byte write leaves every cell above OAM alone but its own two. -/
theorem memWrite16_keeps (a : U16) (lo hi : Byte) {x : Nat} (hx : 0xFEA0 ≤ x) (h1 : a.toNat ≠ x)
    (h2 : a.toNat + 1 ≠ x) (s : State) :
    Ends (memWrite16 a.toNat lo hi s) fun t => Memory.read t.mem x = Memory.read s.mem x := by
  rcases memWrite16_cases (a := a.toNat) (by have := a.isLt; omega) lo hi s with
    ⟨_, h⟩ | ⟨_, t, u, h, _, h', _, e⟩
  · exact .inr ⟨_, h, Memory.read_write_other _ _ (by omega)⟩
  · exact .inl ⟨_, u, e, (read_memWrite_other h' hx (by omega)).trans (read_memWrite_other h hx (by omega))⟩

/-- A memory command leaves every cell above OAM alone but those its writes reach. -/
theorem memoryCommand_keeps {i : Instr} {act : State → Res Response} (h : memoryCommand i = some act) {x : Nat}
    (hx : 0xFEA0 ≤ x) (hi : ¬ WriteReaches i x) (s : State) :
    Ends (act s) fun t => Memory.read t.mem x = Memory.read s.mem x := by
  cases i <;> simp only [memoryCommand, Option.some.injEq, reduceCtorEq] at h <;> subst h
  case read a => rw [readCommand_eq]; exact .ok rfl
  case read16 a =>
    rcases Nat.lt_or_ge a.toNat 0xFFFF with h | h
    · rw [read16Command_inRange h]; exact .ok rfl
    · exact .inr ⟨s, read16Command_top (by have := a.isLt; omega) s, rfl⟩
  case readrange start stop =>
    rw [readrangeCommand_eq]; split
    · exact .inr ⟨s, rfl, rfl⟩
    · exact .ok rfl
  case write a v =>
    obtain ⟨t, h, hw, _⟩ := writeCommand_ok a v s
    rw [h]; exact .ok (read_memWrite_other hw hx fun e => hi (.inl ⟨a, v, rfl, e.symm⟩))
  case write2 a hi' lo =>
    exact (memWrite16_keeps a lo hi' hx (fun e => hi (.inr (.inl ⟨a, hi', lo, rfl, .inl e⟩)))
      (fun e => hi (.inr (.inl ⟨a, hi', lo, rfl, .inr e⟩))) s).andThen (fun _ _ m => .ok m) fun _ m => m
  case write16 a v =>
    exact (memWrite16_keeps a (lo8 v) (hi8 v) hx (fun e => hi (.inr (.inr ⟨a, v, rfl, .inl e⟩)))
      (fun e => hi (.inr (.inr ⟨a, v, rfl, .inr e⟩))) s).andThen (fun _ _ m => .ok m) fun _ m => m

/-- A memory command raises exactly on the forms of R70's table. -/
theorem memoryCommand_completes {i : Instr} {act : State → Res Response} (h : memoryCommand i = some act)
    (s : State) : (RaisesOutOfRange i ∧ ∃ t, act s = .raised 0x10000 t) ∨
      (¬ RaisesOutOfRange i ∧ ∃ r t, act s = .ok r t) := by
  have top : ∀ {a : U16}, 0xFFFF ≤ a.toNat → a = 0xFFFF#16 := fun {a} h => by bv_omega
  have two : ∀ (a : U16) (lo hi : Byte), (a = 0xFFFF#16 ∧ ∃ t, memWrite16 a.toNat lo hi s = .raised 0x10000 t) ∨
      (a ≠ 0xFFFF#16 ∧ ∃ t, memWrite16 a.toNat lo hi s = .ok () t) := fun a lo hi => by
    rcases memWrite16_cases (a := a.toNat) (by have := a.isLt; omega) lo hi s with ⟨h, e⟩ | ⟨h, _, u, _, _, _, _, e⟩
    · exact .inl ⟨top (by omega), _, e⟩
    · exact .inr ⟨fun e => by simp [e] at h, u, e⟩
  cases i <;> simp only [memoryCommand, Option.some.injEq, reduceCtorEq] at h <;> subst h
  case read a => exact .inr ⟨by simp [RaisesOutOfRange], _, _, readCommand_eq a s⟩
  case read16 a =>
    rcases Nat.lt_or_ge a.toNat 0xFFFF with h | h
    · exact .inr ⟨fun e => by simp [RaisesOutOfRange] at e; simp [e] at h, _, _, read16Command_inRange h s⟩
    · exact .inl ⟨.inl (by rw [top h]), s, read16Command_top (by have := a.isLt; omega) s⟩
  case readrange start stop =>
    rw [readrangeCommand_eq]; split
    · exact .inl ⟨.inr (.inl ⟨start, stop, rfl, ‹_›⟩), s, rfl⟩
    · exact .inr ⟨fun e => by simp [RaisesOutOfRange] at e; omega, _, _, rfl⟩
  case write a v =>
    obtain ⟨t, h, _⟩ := writeCommand_ok a v s
    exact .inr ⟨by simp [RaisesOutOfRange], _, t, h⟩
  case write2 a hi lo =>
    rcases two a lo hi with ⟨rfl, t, e⟩ | ⟨h, t, e⟩
    · exact .inl ⟨.inr (.inr (.inl ⟨hi, lo, rfl⟩)), t, by rw [write2Command, e]; rfl⟩
    · exact .inr ⟨by simp [RaisesOutOfRange, h], _, t, by rw [write2Command, e]; rfl⟩
  case write16 a v =>
    rcases two a (lo8 v) (hi8 v) with ⟨rfl, t, e⟩ | ⟨h, t, e⟩
    · exact .inl ⟨.inr (.inr (.inr ⟨v, rfl⟩)), t, by rw [write16Command, e]; rfl⟩
    · exact .inr ⟨by simp [RaisesOutOfRange, h], _, t, by rw [write16Command, e]; rfl⟩

/-! ## Requests and interrupt entry -/

theorem requestLine_eq (l : Line) (s : State) :
    requestLine l s = .ok () (rawStore ifAddr (withRequest l (Memory.read s.mem ifAddr)) s) := by
  simp [requestLine]

theorem memOnly_ifStore (b : Byte) (s : State) : MemOnly s (rawStore ifAddr b s) :=
  memOnly_rawStore (by decide) (by decide) (by decide) b s

theorem dispatchLine_eq (l : Line) (s : State) :
    dispatchLine l s =
      cpuCall (((rawStore ifAddr (withoutRequest l (Memory.read s.mem ifAddr)) s).setIme false).push
        (.call (lineVector l))) := by
  simp [dispatchLine]

/-- One line of CHECKINT (R59): nothing, a Wake, or a Wake and the dispatch. -/
theorem checkLine_eq (ime0 : Bool) (l : Line) (s : State) :
    checkLine ime0 l s =
      if lineRequested l (Memory.read s.mem ieAddr) (Memory.read s.mem ifAddr) then
        if ime0 then dispatchLine l (s.push .wake) else .ok () (s.push .wake)
      else .ok () s := by
  simp only [checkLine, memRead_ie, memRead_if, andThen_ok]
  cases lineRequested l (Memory.read s.mem ieAddr) (Memory.read s.mem ifAddr) <;> cases ime0 <;> rfl

/-- A Call with no command left in `cpuCalls` does nothing. -/
theorem cpuCall_none {s : State} (h : s.cpuCalls = []) : cpuCall s = .ok () s := by simp [cpuCall, h]

/-- What the CPU collaborator's part of a Call can do (41_interrupt_controller.md R61 d, e): it changes memory
as memory commands do, and adds replies; IME, BTN, DPAD, FAULT, the port and the later Calls are kept. -/
structure InCall (s t : State) : Prop where
  ime : t.ime = s.ime
  btn : t.btn = s.btn
  dpad : t.dpad = s.dpad
  fault : t.fault = s.fault
  port : t.port = s.port
  calls : t.cpuCalls = s.cpuCalls
  refused : s.refused = true → t.refused = true
  trace : ∃ rs : List Response, t.trace = s.trace ++ rs.map .reply
  marked : .reply .refusedIllegalCommand ∈ t.trace → .reply .refusedIllegalCommand ∈ s.trace ∨ t.refused = true
  wf : Memory.wf s.mem → Memory.wf t.mem
  keeps : ∀ a, Untouchable a → Memory.read t.mem a = Memory.read s.mem a

theorem InCall.refl (s : State) : InCall s s := ⟨rfl, rfl, rfl, rfl, rfl, rfl, id, ⟨[], by simp⟩, .inl, id, fun _ _ => rfl⟩

theorem InCall.trans {s t u : State} (h1 : InCall s t) (h2 : InCall t u) : InCall s u :=
  ⟨h2.ime.trans h1.ime, h2.btn.trans h1.btn, h2.dpad.trans h1.dpad, h2.fault.trans h1.fault, h2.port.trans h1.port,
    h2.calls.trans h1.calls, h2.refused ∘ h1.refused,
    (by
      obtain ⟨a, ha⟩ := h1.trace; obtain ⟨b, hb⟩ := h2.trace
      exact ⟨a ++ b, by rw [hb, ha]; simp⟩),
    (fun h => (h2.marked h).elim (fun h => (h1.marked h).imp_right h2.refused) .inr), h2.wf ∘ h1.wf,
    fun a ha => (h2.keeps a ha).trans (h1.keeps a ha)⟩

theorem MemOnly.inCall {s t : State} (h : MemOnly s t) : InCall s t := by
  obtain ⟨h1, h2, h3, h4, h5, h6, h7, h8⟩ := h.fields
  exact ⟨h1, h2, h3, h4, h7, h8, fun hr => h5.trans hr, ⟨[], by simpa using h6⟩,
    (fun h => .inl (h6 ▸ h)), h.wf, h.keeps⟩

theorem inCall_reply {r : Response} (hr : r ≠ .refusedIllegalCommand) (s : State) : InCall s (s.push (.reply r)) :=
  ⟨rfl, rfl, rfl, rfl, rfl, rfl, id, ⟨[r], rfl⟩, (fun h => .inl (by simpa [hr.symm] using h)), id, fun _ _ => rfl⟩

theorem inCall_refuse (s : State) : InCall s (refuseInCall s) :=
  ⟨rfl, rfl, rfl, rfl, rfl, rfl, fun _ => rfl, ⟨[.refusedIllegalCommand], rfl⟩, fun _ => .inr rfl, id,
    fun _ _ => rfl⟩

theorem callCommand_ends (w : Command) (s : State) : Ends (callCommand w s) (InCall s) := by
  unfold callCommand
  split
  · exact .ok (inCall_refuse s)
  · next i _ =>
    split
    · exact .ok (inCall_refuse s)
    · next act hact =>
      rcases memoryCommand_ends hact s with ⟨r, t, e, m⟩ | ⟨t, e, m⟩
      · rw [e]; exact .ok (m.inCall.trans (inCall_reply (memoryCommand_answers hact e).1 t))
      · rw [e]; exact .inr ⟨_, rfl, m.inCall.trans (inCall_reply (by simp) t)⟩

/-- A word of a Call leaves every cell above OAM that its write does not reach alone. -/
theorem callCommand_keeps {w : Command} {x : Nat} (hx : 0xFEA0 ≤ x)
    (hw : ∀ i, decode w = .ok i → ¬ WriteReaches i x) (s : State) :
    Ends (callCommand w s) fun t => Memory.read t.mem x = Memory.read s.mem x := by
  unfold callCommand
  split
  · exact .ok rfl
  · next i hd =>
    split
    · exact .ok rfl
    · next act hact =>
      rcases memoryCommand_keeps hact hx (hw i hd) s with ⟨r, t, e, k⟩ | ⟨t, e, k⟩ <;> rw [e]
      · exact .ok k
      · exact .inr ⟨_, rfl, k⟩

theorem callCommands_keeps {ws : List Command} {x : Nat} (hx : 0xFEA0 ≤ x)
    (hw : ∀ w ∈ ws, ∀ i, decode w = .ok i → ¬ WriteReaches i x) (s : State) :
    Ends (callCommands ws s) fun t => Memory.read t.mem x = Memory.read s.mem x := by
  induction ws generalizing s with
  | nil => exact .ok rfl
  | cons w ws ih =>
    exact (callCommand_keeps hx (hw w (by simp)) s).andThen
      (fun _ t h => (ih (fun v hv => hw v (by simp [hv])) t).imp fun _ h' => h'.trans h) fun _ h => h

theorem callCommands_ends (ws : List Command) (s : State) : Ends (callCommands ws s) (InCall s) := by
  induction ws generalizing s with
  | nil => exact .ok (.refl s)
  | cons w ws ih =>
    exact (callCommand_ends w s).andThen (fun _ t h => (ih t).imp fun _ h' => h.trans h') fun _ h => h

/-- `CPU_CALL` takes the next command list from the input, or finds none. -/
theorem cpuCall_ends (s : State) : Ends (cpuCall s) (InCall (s.setCalls (s.cpuCalls.drop 1))) := by
  unfold cpuCall
  split
  · next h => exact .ok (by rw [h, List.drop_nil, ← h]; exact .refl s)
  · next ws rest h => rw [h]; exact callCommands_ends ws _

/-! ## The lines of CHECKINT -/

/-- What the lines of a CHECKINT can do: BTN, DPAD, FAULT and the port are kept, IME is never set, the trace
grows by events and replies, memory changes as memory commands change it. -/
structure InCheck (s t : State) : Prop where
  ime : t.ime = true → s.ime = true
  btn : t.btn = s.btn
  dpad : t.dpad = s.dpad
  fault : t.fault = s.fault
  port : t.port = s.port
  refused : s.refused = true → t.refused = true
  trace : ∃ os : List Output, t.trace = s.trace ++ os ∧ os.all Output.isEvent
  marked : .reply .refusedIllegalCommand ∈ t.trace → .reply .refusedIllegalCommand ∈ s.trace ∨ t.refused = true
  wf : Memory.wf s.mem → Memory.wf t.mem
  keeps : ∀ a, Untouchable a → Memory.read t.mem a = Memory.read s.mem a

theorem InCheck.refl (s : State) : InCheck s s :=
  ⟨id, rfl, rfl, rfl, rfl, id, ⟨[], by simp⟩, .inl, id, fun _ _ => rfl⟩

theorem InCheck.trans {s t u : State} (h1 : InCheck s t) (h2 : InCheck t u) : InCheck s u :=
  ⟨h1.ime ∘ h2.ime, h2.btn.trans h1.btn, h2.dpad.trans h1.dpad, h2.fault.trans h1.fault, h2.port.trans h1.port,
    h2.refused ∘ h1.refused,
    (by
      obtain ⟨a, ha, pa⟩ := h1.trace; obtain ⟨b, hb, pb⟩ := h2.trace
      exact ⟨a ++ b, by rw [hb, ha]; simp, by rw [List.all_append, pa, pb]; rfl⟩),
    (fun h => (h2.marked h).elim (fun h => (h1.marked h).imp_right h2.refused) .inr), h2.wf ∘ h1.wf,
    fun a ha => (h2.keeps a ha).trans (h1.keeps a ha)⟩

theorem InCall.inCheck {s t : State} (h : InCall s t) : InCheck s t :=
  ⟨fun e => h.ime ▸ e, h.btn, h.dpad, h.fault, h.port, h.refused,
    (by obtain ⟨rs, e⟩ := h.trace; exact ⟨_, e, by simp [Output.isEvent]⟩), h.marked, h.wf, h.keeps⟩

theorem inCheck_event {o : Output} (ho : o.isEvent = true) (hr : o ≠ .reply .refusedIllegalCommand) (s : State) :
    InCheck s (s.push o) :=
  ⟨id, rfl, rfl, rfl, rfl, id, ⟨[o], rfl, by simp [ho]⟩, (fun h => .inl (by simpa [hr.symm] using h)), id,
    fun _ _ => rfl⟩

theorem inCheck_imeFalse (s : State) : InCheck s (s.setIme false) :=
  ⟨fun h => by simp at h, rfl, rfl, rfl, rfl, id, ⟨[], by simp⟩, .inl, id, fun _ _ => rfl⟩

theorem inCheck_setCalls (cs : List (List Command)) (s : State) : InCheck s (s.setCalls cs) :=
  ⟨id, rfl, rfl, rfl, rfl, id, ⟨[], by simp⟩, .inl, id, fun _ _ => rfl⟩

/-- Interrupt entry leaves IME false (60_exceptions.md R74). -/
theorem dispatchLine_ends (l : Line) (s : State) :
    Ends (dispatchLine l s) fun t => InCheck s t ∧ t.ime = false := by
  rw [dispatchLine_eq]
  refine (cpuCall_ends _).imp fun t h => ⟨?_, by rw [h.ime]; rfl⟩
  exact ((memOnly_ifStore _ s).inCall.inCheck.trans (inCheck_imeFalse _)).trans
    ((inCheck_event (o := .call (lineVector l)) rfl (by simp) _).trans ((inCheck_setCalls _ _).trans h.inCheck))

theorem checkLine_ends (ime0 : Bool) (l : Line) (s : State) : Ends (checkLine ime0 l s) (InCheck s) := by
  rw [checkLine_eq]
  split
  · split
    · exact (dispatchLine_ends l _).imp fun t h => (inCheck_event rfl (by simp) s).trans h.1
    · exact .ok (inCheck_event rfl (by simp) s)
  · exact .ok (.refl s)

theorem checkLines_ends (ime0 : Bool) (ls : List Line) (s : State) : Ends (checkLines ime0 ls s) (InCheck s) := by
  induction ls generalizing s with
  | nil => exact .ok (.refl s)
  | cons l ls ih =>
    exact (checkLine_ends ime0 l s).andThen (fun _ t h => (ih t).imp fun _ h' => h.trans h') fun _ h => h

theorem cpuCall_keeps {s : State} {x : Nat} (hx : 0xFEA0 ≤ x)
    (hw : ∀ ws ∈ s.cpuCalls.take 1, ∀ w ∈ ws, ∀ i, decode w = .ok i → ¬ WriteReaches i x) :
    Ends (cpuCall s) fun t => Memory.read t.mem x = Memory.read s.mem x := by
  unfold cpuCall
  split
  · exact .ok rfl
  · next ws rest h => exact callCommands_keeps hx (hw ws (by simp [h])) _

/-- A line makes at most one Call. -/
theorem checkLine_calls (ime0 : Bool) (l : Line) (s : State) :
    Ends (checkLine ime0 l s) fun t => t.cpuCalls = s.cpuCalls ∨ t.cpuCalls = s.cpuCalls.drop 1 := by
  rw [checkLine_eq]
  split
  · split
    · rw [dispatchLine_eq]; exact (cpuCall_ends _).imp fun t h => .inr h.calls
    · exact .ok (.inl rfl)
  · exact .ok (.inl rfl)

theorem checkLine_keeps (ime0 : Bool) (l : Line) {x : Nat} (hx : 0xFEA0 ≤ x) (hif : x ≠ ifAddr) {s : State}
    (hw : ∀ ws ∈ s.cpuCalls.take 1, ∀ w ∈ ws, ∀ i, decode w = .ok i → ¬ WriteReaches i x) :
    Ends (checkLine ime0 l s) fun t => Memory.read t.mem x = Memory.read s.mem x := by
  rw [checkLine_eq]
  split
  · split
    · rw [dispatchLine_eq]
      exact (cpuCall_keeps hx (by exact hw)).imp fun t h => h.trans (Memory.read_write_other _ _ hif)
    · exact .ok rfl
  · exact .ok rfl

/-- The Calls left after a line are among those a list of lines with that line could make. -/
theorem take_calls {calls calls' : List (List Command)} {n : Nat} (h : calls' = calls ∨ calls' = calls.drop 1)
    {ws : List Command} (hws : ws ∈ calls'.take n) : ws ∈ calls.take (n + 1) := by
  rcases h with rfl | rfl
  · exact List.take_subset_take_left _ (by simp) hws
  · rw [List.take_drop] at hws
    exact List.mem_of_mem_tail (by simpa [Nat.add_comm] using hws)

/-- The lines of a CHECKINT change a cell above OAM other than IF only by a write that a Call issues, and they
make at most one Call each (41_interrupt_controller.md R61). -/
theorem checkLines_keeps (ime0 : Bool) {ls : List Line} {x : Nat} (hx : 0xFEA0 ≤ x) (hif : x ≠ ifAddr) {s : State}
    (hw : ∀ ws ∈ s.cpuCalls.take ls.length, ∀ w ∈ ws, ∀ i, decode w = .ok i → ¬ WriteReaches i x) :
    Ends (checkLines ime0 ls s) fun t => Memory.read t.mem x = Memory.read s.mem x := by
  induction ls generalizing s with
  | nil => exact .ok rfl
  | cons l ls ih =>
    have one := checkLine_keeps ime0 l hx hif (s := s) fun ws h => hw ws (List.take_subset_take_left _ (by simp) h)
    have both : Ends (checkLine ime0 l s) fun t => (t.cpuCalls = s.cpuCalls ∨ t.cpuCalls = s.cpuCalls.drop 1) ∧
        Memory.read t.mem x = Memory.read s.mem x := (checkLine_calls ime0 l s).and one
    exact both.andThen (fun _ t h => (ih fun ws hws => hw ws (take_calls h.1 hws)).imp fun _ h' => h'.trans h.2)
      fun _ h => h.2

end Sys2Proof.Machine
end

