-- ==== Sys2Proof/Laws/Reset.lean ====
section
/-! SUPPORT. INIT_IMAGE, BOOT_TABLE and the state after reset. -/

namespace Sys2Proof.Machine

theorem wf_initImage : Memory.wf initImage := Memory.wf_ofBytes Config.initByte (Nat.le_refl _)

theorem read_initImage {a : Nat} (h : a ≤ 0xFFFF) : Memory.read initImage a = Config.initByte a :=
  (Memory.read_ofBytes Config.initByte 0x10000 a).trans (if_pos (Nat.lt_succ_of_le h))

/-- An address of a table that meets R85 is a plain cell. -/
theorem bootTableOk_mem {table : List BootEntry} (h : bootTableOk table = true) {e : BootEntry} (he : e ∈ table) :
    0xFF00 < e.1.toNat ∧ e.1.toNat ≠ 0xFF46 := by
  simp only [bootTableOk, Bool.and_eq_true, List.all_eq_true, decide_eq_true_eq] at h
  exact h.1 e he

theorem bootTableOk_nodup {table : List BootEntry} (h : bootTableOk table = true) : (table.map (·.1)).Nodup := by
  simp only [bootTableOk, Bool.and_eq_true, decide_eq_true_eq] at h
  exact h.2

theorem bootTableOk_tail {e : BootEntry} {table : List BootEntry} (h : bootTableOk (e :: table) = true) :
    bootTableOk table = true := by
  simp only [bootTableOk, Bool.and_eq_true, List.all_eq_true, decide_eq_true_eq, List.mem_cons, List.map_cons,
    List.nodup_cons] at h ⊢
  exact ⟨fun x hx => h.1 x (.inr hx), h.2.2⟩

/-- The memory after a table's pairs are stored. -/
def bootMemory (table : List BootEntry) (m : Memory) : Memory :=
  table.foldl (fun m e => Memory.write m e.1.toNat e.2) m

theorem wf_bootMemory (table : List BootEntry) {m : Memory} (hm : Memory.wf m) : Memory.wf (bootMemory table m) := by
  induction table generalizing m with
  | nil => exact hm
  | cons e table ih => exact ih (Memory.wf_write hm (by have := e.1.isLt; omega))

/-- BOOTSTRAP of a table that meets R85 stores its pairs plainly: every entry takes step 4 of the dispatcher. -/
theorem applyBootTable_eq {table : List BootEntry} (h : bootTableOk table = true) (s : State) :
    applyBootTable table s = .ok () (s.setMem (bootMemory table s.mem)) := by
  induction table generalizing s with
  | nil => rfl
  | cons e table ih =>
    obtain ⟨h1, h2⟩ := bootTableOk_mem h (e := e) (by simp)
    have hw := memWrite_plain e.2.toNat s (a := e.1.toNat) (by omega) (by omega) h2 (by have := e.1.isLt; omega)
    simp only [applyBootTable, hw, andThen_ok, ih (bootTableOk_tail h), BitVec.ofNat_toNat, BitVec.setWidth_eq]
    rfl

/-- An address that no pair names keeps its byte. -/
theorem read_bootMemory_other {table : List BootEntry} (m : Memory) {a : Nat} (h : ∀ e ∈ table, e.1.toNat ≠ a) :
    Memory.read (bootMemory table m) a = Memory.read m a := by
  induction table generalizing m with
  | nil => rfl
  | cons e table ih =>
    exact (ih (Memory.write m e.1.toNat e.2) fun x hx => h x (by simp [hx])).trans
      (Memory.read_write_other m e.2 fun he => h e (by simp) he.symm)

/-- A pair's address holds the pair's byte. -/
theorem read_bootMemory_mem {table : List BootEntry} (h : bootTableOk table = true) {m : Memory} (hm : Memory.wf m)
    {e : BootEntry} (he : e ∈ table) : Memory.read (bootMemory table m) e.1.toNat = e.2 := by
  induction table generalizing m with
  | nil => simp at he
  | cons d table ih =>
    have hw := Memory.wf_write (b := d.2) hm (a := d.1.toNat) (by have := d.1.isLt; omega)
    have hn := bootTableOk_nodup h
    simp only [List.map_cons, List.nodup_cons, List.mem_map, not_exists, not_and] at hn
    rcases List.mem_cons.mp he with rfl | he
    · refine (read_bootMemory_other (table := table) _ fun x hx hxe => hn.1 x hx (BitVec.eq_of_toNat_eq hxe)).trans ?_
      exact Memory.read_write_same hm _ _
    · exact ih (bootTableOk_tail h) hw he

/-- BOOT_TABLE meets R85 whatever the parameter is. -/
theorem bootTable_ok : bootTableOk Config.bootTable = true := by
  have entry : ∀ {k : Nat} {e : BootEntry}, k < 256 →
      (if k = 0 ∨ k = 0x46 then none else (Config.bootByte k).map fun b => (BitVec.ofNat 16 (0xFF00 + k), b)) = some e →
      k ≠ 0 ∧ k ≠ 0x46 ∧ e.1.toNat = 0xFF00 + k := fun {k e} hk h => by
    split at h
    · simp at h
    · next hn =>
      obtain ⟨b, -, rfl⟩ := Option.map_eq_some_iff.mp h
      refine ⟨fun h => hn (.inl h), fun h => hn (.inr h), ?_⟩
      rw [BitVec.toNat_ofNat]; omega
  simp only [bootTableOk, Bool.and_eq_true, List.all_eq_true, decide_eq_true_eq]
  constructor
  · intro e he
    obtain ⟨k, hk, h⟩ := List.mem_filterMap.mp he
    obtain ⟨h1, h2, h3⟩ := entry (List.mem_range.mp hk) h
    omega
  · have hp : (Config.bootTable).Pairwise fun x y => x.1.toNat < y.1.toNat := by
      unfold Config.bootTable
      refine List.pairwise_filterMap.mpr (List.Pairwise.imp_of_mem ?_ (List.pairwise_lt_range (n := 256)))
      intro x y hx hy hxy e he f hf
      have h1 := (entry (List.mem_range.mp hx) he).2.2
      have h2 := (entry (List.mem_range.mp hy) hf).2.2
      omega
    refine List.pairwise_map.mpr (hp.imp fun {x y} h he => ?_)
    rw [he] at h
    exact Nat.lt_irrefl _ h

/-- The memory after reset. -/
theorem reset_mem_eq : State.reset.mem = bootMemory Config.bootTable initImage := rfl

theorem wf_reset : Memory.wf State.reset.mem := by rw [reset_mem_eq]; exact wf_bootMemory _ wf_initImage

/-- The cells no table entry names keep INIT_IMAGE's byte at reset. -/
theorem read_reset_other {a : Nat} (ha : a ≤ 0xFFFF) (h : ∀ e ∈ Config.bootTable, e.1.toNat ≠ a) :
    Memory.read State.reset.mem a = Config.initByte a := by
  rw [reset_mem_eq, read_bootMemory_other _ h, read_initImage ha]

end Sys2Proof.Machine
end

