-- ==== Sys2Proof/Laws/Exec.lean ====
section
/-! SUPPORT. What exec is in a state that accepts a command (FAULT none), one lemma per instruction, each with
the shared operation it runs; and that a next state comes from such a state only. -/

namespace Sys2Proof.Machine

variable {s : State}

theorem exec_read (h : s.fault = none) (a : U16) : exec (.read a) s = complete (readCommand a s) := by
  show execRead a s = _
  rw [execRead, accept_of_none h]

theorem exec_read16 (h : s.fault = none) (a : U16) : exec (.read16 a) s = complete (read16Command a s) := by
  show execRead16 a s = _
  rw [execRead16, accept_of_none h]

theorem exec_readrange (h : s.fault = none) (a : U16) (e : U17) :
    exec (.readrange a e) s = complete (readrangeCommand a e s) := by
  show execReadrange a e s = _
  rw [execReadrange, accept_of_none h]

theorem exec_write (h : s.fault = none) (a v : U16) : exec (.write a v) s = complete (writeCommand a v s) := by
  show execWrite a v s = _
  rw [execWrite, accept_of_none h]

theorem exec_write2 (h : s.fault = none) (a : U16) (hi lo : Byte) :
    exec (.write2 a hi lo) s = complete (write2Command a hi lo s) := by
  show execWrite2 a hi lo s = _
  rw [execWrite2, accept_of_none h]

theorem exec_write16 (h : s.fault = none) (a v : U16) : exec (.write16 a v) s = complete (write16Command a v s) := by
  show execWrite16 a v s = _
  rw [execWrite16, accept_of_none h]

theorem exec_checkint (h : s.fault = none) :
    exec .checkint s = complete (thenDone (checkLines s.ime linesInPriority s)) := by
  show execCheckint s = _
  rw [execCheckint, accept_of_none h]

theorem exec_setint (h : s.fault = none) (l : Line) : exec (.setint l) s =
    .next ((rawStore ifAddr (withRequest l (Memory.read s.mem ifAddr)) s).push (.response .done)) := by
  show execSetint l s = _
  rw [execSetint, accept_of_none h, requestLine_eq]; rfl

theorem exec_pressb (h : s.fault = none) (m : Nibble) : exec (.pressb m) s =
    .next ((rawStore ifAddr (withRequest .input (Memory.read s.mem ifAddr)) (s.setBtn (pressed s.btn m))).push
      (.response .done)) := by
  show execPressb m s = _
  rw [execPressb, accept_of_none h, requestLine_eq]; rfl

theorem exec_unpressb (h : s.fault = none) (m : Nibble) :
    exec (.unpressb m) s = .next ((s.setBtn (released s.btn m)).push (.response .done)) := by
  show execUnpressb m s = _
  rw [execUnpressb, accept_of_none h]; rfl

theorem exec_pressd (h : s.fault = none) (m : Nibble) : exec (.pressd m) s =
    .next ((rawStore ifAddr (withRequest .input (Memory.read s.mem ifAddr)) (s.setDpad (pressed s.dpad m))).push
      (.response .done)) := by
  show execPressd m s = _
  rw [execPressd, accept_of_none h, requestLine_eq]; rfl

theorem exec_unpressd (h : s.fault = none) (m : Nibble) :
    exec (.unpressd m) s = .next ((s.setDpad (released s.dpad m)).push (.response .done)) := by
  show execUnpressd m s = _
  rw [execUnpressd, accept_of_none h]; rfl

theorem exec_setime (h : s.fault = none) (b : Bool) :
    exec (.setime b) s = .next ((s.setIme b).push (.response .done)) := by
  show execSetime b s = _
  rw [execSetime, accept_of_none h]; rfl

theorem exec_updatejoyp (h : s.fault = none) (sel : Byte) : exec (.updatejoyp sel) s = .next (updateJoyp sel s) := by
  show execUpdatejoyp sel s = _
  rw [execUpdatejoyp, accept_of_none h]; rfl

theorem exec_dma (h : s.fault = none) (v : Byte) :
    exec (.dma v) s = .next (s.setMem (dmaMemory (v.toNat * 256) 160 0 s.mem)) := by
  show execDma v s = _
  rw [execDma, accept_of_none h, dmaTransfer_eq, settle_ok]

theorem exec_rawstore (h : s.fault = none) (a : U16) (b : Byte) : exec (.rawstore a b) s =
    if rawStoreOk a then .next (rawStore a.toNat b s) else .refused (.rawStoreOutsideDomain a) := by
  show execRawstore a b s = _
  rw [execRawstore, accept_of_none h]; rfl

theorem exec_bootstrap (h : s.fault = none) (table : List BootEntry) : exec (.bootstrap table) s =
    if bootTableOk table then .next (s.setMem (bootMemory table s.mem)) else .refused .invalidBootTable := by
  show execBootstrap table s = _
  rw [execBootstrap, accept_of_none h]
  split
  · next hok => rw [applyBootTable_eq hok, settle_ok]
  · rfl

/-- Only a block without a fault reaches a next state. -/
theorem fault_none_of_exec {i : Instr} {t : State} (h : exec i s = .next t) : s.fault = none := by
  rcases hf : s.fault with _ | f
  · rfl
  · exfalso
    cases i <;> simp only [exec, execRead, execRead16, execReadrange, execWrite, execWrite2, execWrite16, execCheckint,
      execSetint, execPressb, execUnpressb, execPressd, execUnpressd, execSetime, execUpdatejoyp, execDma, execRawstore,
      execBootstrap, accept_of_some hf, reduceCtorEq] at h

/-- A step runs an accepted command, refuses an illegal word, or idles. -/
theorem step_cases {t : State} (h : step s = .next t) : s.fault = none ∧
    ((s.port = [] ∧ t = s) ∨
      (∃ w rest e, s.port = w :: rest ∧ decode w = .error e ∧ t = refuseCommand (s.setPort rest)) ∨
      (∃ w rest i, s.port = w :: rest ∧ decode w = .ok i ∧ exec i (s.setPort rest) = .next t)) := by
  obtain ⟨hf, h⟩ := accept_next h
  refine ⟨hf, ?_⟩
  unfold takeCommand at h
  rcases hp : s.port with _ | ⟨w, rest⟩
  · simp only [hp] at h
    exact .inl ⟨rfl, by simpa using h.symm⟩
  · rcases hd : decode w with e | i
    · simp only [hp, hd] at h
      exact .inr (.inl ⟨w, rest, e, rfl, hd, by simpa using h.symm⟩)
    · simp only [hp, hd] at h
      exact .inr (.inr ⟨w, rest, i, rfl, hd, h⟩)

end Sys2Proof.Machine
end

