-- ==== Sys2Proof/Laws/PerInstr.lean ====
section
/-! SUPPORT. One law for each instruction: the OP field of its word is its row's of 30_encoding.md R46, and its
reserved field is 0 (R43); an internal operation has no word (R48). -/

namespace Sys2Proof.Laws.OpcodeField

/-- The OP value of each row of R46; none for the internal operations. -/
def opcodeOf : Instr → Option Nibble
  | .read _ => some 0x1#4
  | .read16 _ => some 0x2#4
  | .readrange _ _ => some 0x3#4
  | .write _ _ => some 0x4#4
  | .write2 _ _ _ => some 0x5#4
  | .write16 _ _ => some 0x6#4
  | .checkint => some 0x7#4
  | .setint _ => some 0x8#4
  | .pressb _ => some 0x9#4
  | .unpressb _ => some 0xA#4
  | .pressd _ => some 0xB#4
  | .unpressd _ => some 0xC#4
  | .setime _ => some 0xD#4
  | .updatejoyp _ => none
  | .dma _ => none
  | .rawstore _ _ => none
  | .bootstrap _ => none

/-- What each lemma below says of its instruction. -/
def Statement (i : Instr) : Prop :=
  match encode i with
  | some w => opcodeOf i = some (opField w) ∧ rsvField w = 0#7
  | none => opcodeOf i = none

/-- An assembled word has the OP it was given and a zero reserved field. -/
theorem fields_wordOf (op x : Nibble) (a : U16) (e : U17) (d : U16) :
    some op = some (opField (wordOf op x a e d)) ∧ rsvField (wordOf op x a e d) = 0#7 := by simp

theorem read (a : U16) : Statement (.read a) := fields_wordOf _ _ _ _ _
theorem read16 (a : U16) : Statement (.read16 a) := fields_wordOf _ _ _ _ _
theorem readrange (a : U16) (e : U17) : Statement (.readrange a e) := fields_wordOf _ _ _ _ _
theorem write (a v : U16) : Statement (.write a v) := fields_wordOf _ _ _ _ _
theorem write2 (a : U16) (hi lo : Byte) : Statement (.write2 a hi lo) := fields_wordOf _ _ _ _ _
theorem write16 (a v : U16) : Statement (.write16 a v) := fields_wordOf _ _ _ _ _
theorem checkint : Statement .checkint := fields_wordOf _ _ _ _ _
theorem setint (l : Line) : Statement (.setint l) := fields_wordOf _ _ _ _ _
theorem pressb (m : Nibble) : Statement (.pressb m) := fields_wordOf _ _ _ _ _
theorem unpressb (m : Nibble) : Statement (.unpressb m) := fields_wordOf _ _ _ _ _
theorem pressd (m : Nibble) : Statement (.pressd m) := fields_wordOf _ _ _ _ _
theorem unpressd (m : Nibble) : Statement (.unpressd m) := fields_wordOf _ _ _ _ _
theorem setime (b : Bool) : Statement (.setime b) := fields_wordOf _ _ _ _ _
theorem updatejoyp (s : Byte) : Statement (.updatejoyp s) := rfl
theorem dma (v : Byte) : Statement (.dma v) := rfl
theorem rawstore (a : U16) (b : Byte) : Statement (.rawstore a b) := rfl
theorem bootstrap (t : List BootEntry) : Statement (.bootstrap t) := rfl

end Sys2Proof.Laws.OpcodeField
end

