-- ==== Sys2Proof/Tests/Slice0.lean ====
section
/-! SUPPORT. Tests: expected values are those of 95_test_vectors.md (the row is named at each test) or of the rule
named. Each `test_witness_<Obligation>` shows a state and operands that meet that statement's hypotheses. -/

namespace Sys2Proof.Tests

open Sys2Proof.Machine

/-- A running block over some cells, every line up, IME false. -/
def block (m : Memory) : State :=
  { mem := m, ime := false, btn := 0xF#4, dpad := 0xF#4, fault := none, refused := false, trace := [], port := [],
    cpuCalls := [] }

/-- The same with IME true. -/
def armed (m : Memory) : State := { block m with ime := true }

/-- A block that has failed. -/
def failed : State := { block [] with fault := some (outOfRange 0x10000) }

/-- A view of the next state, if there is one. -/
def after {α : Type} (o : Host.Outcome State Fault Refusal) (f : State → α) : Option α :=
  match o with
  | .next s => some (f s)
  | .fault _ => none
  | .refused _ => none

/-- The cell at `a` in the next state. -/
def cellOf (a : Nat) (s : State) : Byte := Memory.read s.mem a

/-! ## Well-formedness: an ill-formed term for each check -/

/-- R29: the domain of RAWSTORE. -/
theorem test_wf_rawstore : Instr.wellFormed (.rawstore 0x7FFF#16 1#8) = false ∧
    Instr.wellFormed (.rawstore 0x8000#16 1#8) = true := by decide

/-- B2 (constraint b), B3 and R85 (constraint c), R85 (constraint d), and B4. -/
theorem test_wf_bootstrap : Instr.wellFormed (.bootstrap [(0x4000#16, 0x55#8)]) = false ∧
    Instr.wellFormed (.bootstrap [(0xFF46#16, 0x01#8)]) = false ∧
    Instr.wellFormed (.bootstrap [(0xFF00#16, 0x01#8)]) = false ∧
    Instr.wellFormed (.bootstrap [(0xFF40#16, 0x91#8), (0xFF40#16, 0x91#8)]) = false ∧
    Instr.wellFormed (.bootstrap Config.sampleBootTable) = true := by decide

/-! ## Words, written out from R43 and 95 sections 1 to 3 -/

theorem test_word_read : decode 0x10C0000000000000#64 = .ok (.read 0xC000#16) ∧
    encode (.read 0xC000#16) = some 0x10C0000000000000#64 := by decide
theorem test_word_read16 : decode 0x20C0000000000000#64 = .ok (.read16 0xC000#16) ∧
    encode (.read16 0xC000#16) = some 0x20C0000000000000#64 := by decide
/-- E13. -/
theorem test_word_readrange : decode 0x30FFFE0100000000#64 = .ok (.readrange 0xFFFE#16 0x10000#17) ∧
    encode (.readrange 0xFFFE#16 0x10000#17) = some 0x30FFFE0100000000#64 := by decide
/-- E11. -/
theorem test_word_write : decode 0x40FF460000000083#64 = .ok (.write 0xFF46#16 0x0083#16) ∧
    encode (.write 0xFF46#16 0x0083#16) = some 0x40FF460000000083#64 := by decide
/-- S4. -/
theorem test_word_write2 : decode 0x50C000000000F32C#64 = .ok (.write2 0xC000#16 0xF3#8 0x2C#8) ∧
    encode (.write2 0xC000#16 0xF3#8 0x2C#8) = some 0x50C000000000F32C#64 := by decide
/-- S3. -/
theorem test_word_write16 : decode 0x60C000000000ABCD#64 = .ok (.write16 0xC000#16 0xABCD#16) ∧
    encode (.write16 0xC000#16 0xABCD#16) = some 0x60C000000000ABCD#64 := by decide
theorem test_word_checkint : decode 0x7000000000000000#64 = .ok .checkint ∧
    encode .checkint = some 0x7000000000000000#64 := by decide
/-- I3. -/
theorem test_word_setint : decode 0x8200000000000000#64 = .ok (.setint .timer) ∧
    encode (.setint .timer) = some 0x8200000000000000#64 := by decide
/-- E14. -/
theorem test_word_pressb : decode 0x9E00000000000000#64 = .ok (.pressb 0xE#4) ∧
    encode (.pressb 0xE#4) = some 0x9E00000000000000#64 := by decide
/-- J7. -/
theorem test_word_unpressb : decode 0xAE00000000000000#64 = .ok (.unpressb 0xE#4) ∧
    encode (.unpressb 0xE#4) = some 0xAE00000000000000#64 := by decide
/-- J8. -/
theorem test_word_pressd : decode 0xBB00000000000000#64 = .ok (.pressd 0xB#4) ∧
    encode (.pressd 0xB#4) = some 0xBB00000000000000#64 := by decide
/-- J5. -/
theorem test_word_unpressd : decode 0xCB00000000000000#64 = .ok (.unpressd 0xB#4) ∧
    encode (.unpressd 0xB#4) = some 0xCB00000000000000#64 := by decide
/-- E15. -/
theorem test_word_setime : decode 0xD100000000000000#64 = .ok (.setime true) ∧
    encode (.setime true) = some 0xD100000000000000#64 := by decide
/-- R48. -/
theorem test_word_internal : encode (.updatejoyp 0#8) = none ∧ encode (.dma 0#8) = none ∧
    encode (.rawstore 0x8000#16 0#8) = none ∧ encode (.bootstrap []) = none := by decide

/-- E1, E2, E3: kind (a). -/
theorem test_word_reserved : decode 0x0000000000000000#64 = .error (.reservedOp 0x0#4) ∧
    decode 0xE000000000000000#64 = .error (.reservedOp 0xE#4) ∧
    decode 0xF000000000000000#64 = .error (.reservedOp 0xF#4) := by decide
/-- E4, E5, E6, E8, E9, E10: kind (b). -/
theorem test_word_fixed : decode 0x10C0000000000001#64 = .error (.fixedBits 0x1#4) ∧
    decode 0x30FFFE0200000000#64 = .error (.fixedBits 0x3#4) ∧
    decode 0x8800000000000000#64 = .error (.fixedBits 0x8#4) ∧
    decode 0x7000000000000001#64 = .error (.fixedBits 0x7#4) ∧
    decode 0xD200000000000000#64 = .error (.fixedBits 0xD#4) ∧
    decode 0x9E00000000000001#64 = .error (.fixedBits 0x9#4) := by decide
/-- E7: kind (c). -/
theorem test_word_noLine : decode 0x8500000000000000#64 = .error (.noSuchLine 0x5#4) := by decide

/-- The host's view: bits from `nbits` up are zero. -/
theorem test_decodeTableWord : decodeTableWord 64 0x60C000000000ABCD = some (.write16 0xC000#16 0xABCD#16) ∧
    decodeTableWord 8 0x60C000000000ABCD = none := by decide

/-! ## One step on a small state, at most two for each instruction -/

/-- A1. -/
theorem test_read : after (exec (.read 0xC000#16) (block [(0xC000, 0x5A#8)])) (·.trace) =
    some [.response (.data8 0x5A#8)] := by decide
/-- A8. -/
theorem test_read16 : after (exec (.read16 0xFFFE#16) (block [(0xFFFE, 0x99#8), (0xFFFF, 0x1F#8)])) (·.trace) =
    some [.response (.data16 0x1F99#16)] := by decide
/-- A9. -/
theorem test_read16_top : after (exec (.read16 0xFFFF#16) (block [(0xFFFF, 0x1F#8)])) (fun s => (s.fault, s.trace)) =
    some (some (outOfRange 0x10000), [.response (.fault (outOfRange 0x10000))]) := by decide
/-- A14. -/
theorem test_readrange : after (exec (.readrange 0xFFFE#16 0x10000#17) (block [(0xFFFE, 0x99#8), (0xFFFF, 0x1F#8)]))
    (·.trace) = some [.response (.bytes [0x99#8, 0x1F#8])] := by decide
/-- A13. -/
theorem test_readrange_empty : after (exec (.readrange 0x9001#16 0x9000#17) (block [])) (·.trace) =
    some [.response (.bytes [])] := by decide
/-- A3. -/
theorem test_write : after (exec (.write 0xC000#16 0x1FF#16) (block [])) (cellOf 0xC000) = some 0xFF#8 := by decide
/-- A4. -/
theorem test_write_rom : after (exec (.write 0x7FFF#16 0x42#16) (block [(0x7FFF, 0x77#8)])) (·.mem) =
    some [(0x7FFF, 0x77#8)] := by decide
/-- A16. -/
theorem test_write2 : after (exec (.write2 0xC000#16 0xF3#8 0x2C#8) (block [])) (·.mem) =
    some [(0xC000, 0x2C#8), (0xC001, 0xF3#8)] := by decide
/-- A26. -/
theorem test_write2_top : after (exec (.write2 0xFFFF#16 0x12#8 0x34#8) (block [])) (fun s => (cellOf 0xFFFF s, s.fault)) =
    some (0x34#8, some (outOfRange 0x10000)) := by decide
/-- A20. -/
theorem test_write16_joyp : after (exec (.write16 0xFF00#16 0x7710#16) { block [] with dpad := 0xB#4 }) (·.mem) =
    some [(0xFF00, 0x1B#8), (0xFF01, 0x77#8)] := by decide
set_option maxRecDepth 8000 in
/-- A22, with two bytes of the pattern. -/
theorem test_write16_dma : after (exec (.write16 0xFF45#16 0x8312#16) (block [(0x8300, 0x5A#8), (0x839F, 0xC5#8)]))
    (·.mem) = some [(0x8300, 0x5A#8), (0x839F, 0xC5#8), (0xFE00, 0x5A#8), (0xFE9F, 0xC5#8), (0xFF45, 0x12#8)] := by
  decide
/-- I9. -/
theorem test_checkint : after (exec .checkint (armed [(0xFF0F, 0xFF#8), (0xFFFF, 0x1F#8)]))
    (fun s => (s.trace, cellOf 0xFF0F s, s.ime)) =
    some ([.wake, .call 0x0040#16, .wake, .call 0x0048#16, .wake, .call 0x0050#16, .wake, .call 0x0058#16, .wake,
      .call 0x0060#16, .response .done], 0xE0#8, false) := by decide
/-- I10. -/
theorem test_checkint_disabled : after (exec .checkint (armed [(0xFF0F, 0x03#8), (0xFFFF, 0x02#8)]))
    (fun s => (s.trace, cellOf 0xFF0F s)) =
    some ([.wake, .call 0x0048#16, .response .done], 0x01#8) := by decide
/-- I2. -/
theorem test_setint : after (exec (.setint .input) (block [(0xFF0F, 0xE0#8)])) (cellOf 0xFF0F) = some 0xF0#8 := by decide
/-- I4. -/
theorem test_setint_noCheck : after (exec (.setint .vblank) (armed [(0xFFFF, 0x01#8)]))
    (fun s => (s.trace, cellOf 0xFF0F s)) = some ([.response .done], 0x01#8) := by decide
/-- J2. -/
theorem test_pressb : after (exec (.pressb 0xE#4) { block [] with btn := 0xE#4 })
    (fun s => (s.btn, cellOf 0xFF0F s)) = some (0xE#4, 0x10#8) := by decide
/-- J6. -/
theorem test_unpressb_all : after (exec (.unpressb 0x0#4) { block [] with btn := 0x0#4 }) (·.btn) = some 0xF#4 := by
  decide
/-- J7. -/
theorem test_unpressb : after (exec (.unpressb 0xE#4) { block [] with btn := 0x6#4 }) (·.btn) = some 0x7#4 := by decide
/-- J4. -/
theorem test_pressd : after (exec (.pressd 0x0#4) (block [(0xFF0F, 0xE0#8)])) (fun s => (s.dpad, cellOf 0xFF0F s)) =
    some (0x0#4, 0xF0#8) := by decide
/-- J8. -/
theorem test_pressd_joyp : after (exec (.pressd 0xB#4) (block [(0xFF00, 0x1F#8)]))
    (fun s => (s.dpad, cellOf 0xFF00 s)) = some (0xB#4, 0x1F#8) := by decide
/-- J5. -/
theorem test_unpressd : after (exec (.unpressd 0xB#4) { block [] with dpad := 0xB#4 })
    (fun s => (s.dpad, cellOf 0xFF0F s)) = some (0xF#4, 0x00#8) := by decide
/-- I12. -/
theorem test_setime : after (exec (.setime true) (block [])) (·.ime) = some true := by decide
/-- I14. -/
theorem test_setime_noCheck : after (exec (.setime true) (armed [(0xFF0F, 0x01#8), (0xFFFF, 0x01#8)])) (·.trace) =
    some [.response .done] := by decide
/-- J10 and J11, on the internal operation. -/
theorem test_updatejoyp : after (exec (.updatejoyp 0x10#8) { block [] with dpad := 0xB#4, btn := 0xE#4 }) (·.mem) =
      some [(0xFF00, 0x1B#8)] ∧
    after (exec (.updatejoyp 0x20#8) { block [] with dpad := 0xB#4, btn := 0xE#4 }) (·.mem) = some [(0xFF00, 0x2E#8)] := by
  decide
/-- J13 and J15, through WRITE. -/
theorem test_updatejoyp_write : after (exec (.write 0xFF00#16 0xC5#16) { block [] with dpad := 0xB#4, btn := 0xE#4 })
      (·.mem) = some [(0xFF00, 0xCF#8)] ∧
    after (exec (.write 0xFF00#16 0x1FF#16) { block [] with dpad := 0xB#4, btn := 0xE#4 }) (·.mem) =
      some [(0xFF00, 0xFA#8)] := by decide
set_option maxRecDepth 8000 in
/-- M4, with q = 0x46. -/
theorem test_dma : after (exec (.dma 0xFF#8) (block [(0xFF00, 0x1F#8), (0xFF0F, 0xE1#8), (0xFF45, 0x12#8), (0xFF46, 0x46#8)]))
    (·.mem) = some [(0xFE00, 0x1F#8), (0xFE0F, 0xE1#8), (0xFE45, 0x12#8), (0xFE46, 0x46#8), (0xFF00, 0x1F#8),
      (0xFF0F, 0xE1#8), (0xFF45, 0x12#8), (0xFF46, 0x46#8)] := by decide
set_option maxRecDepth 8000 in
/-- M2. -/
theorem test_dma_own : after (exec (.dma 0xFE#8) (block [(0xFE00, 0x11#8), (0xFE9F, 0x22#8), (0xFEA0, 0x33#8)])) (·.mem) =
    some [(0xFE00, 0x11#8), (0xFE9F, 0x22#8), (0xFEA0, 0x33#8)] := by decide
/-- R29: no dispatch, even at 0xFF46. -/
theorem test_rawstore : after (exec (.rawstore 0xFF46#16 0x83#8) (block [(0x8300, 0x5A#8)])) (·.mem) =
    some [(0x8300, 0x5A#8), (0xFF46, 0x83#8)] := by decide
/-- B1. -/
theorem test_bootstrap : after (exec (.bootstrap [(0xFF40#16, 0x91#8), (0xFFFF#16, 0x00#8)]) (block [(0xFFFF, 0x1F#8)]))
    (·.mem) = some [(0xFF40, 0x91#8)] := by decide
/-- B4: three of its cells. -/
theorem test_bootstrap_sample : after (exec (.bootstrap Config.sampleBootTable) (block [(0xFFFF, 0x1F#8)]))
    (fun s => (cellOf 0xFF40 s, cellOf 0xFF26 s, cellOf 0xFF47 s, cellOf 0xFFFF s)) =
    some (0x91#8, 0xF1#8, 0xFC#8, 0x00#8) := by decide

/-- E4, as a step: the word leaves the port, nothing else of the block changes, and the run is marked. -/
theorem test_step_illegal : step { block [] with port := [0x10C0000000000001#64, 0xD100000000000000#64] } =
    .next { block [] with port := [0xD100000000000000#64], refused := true,
                          trace := [.response .refusedIllegalCommand] } := by rfl
/-- A27. -/
theorem test_step_stuck : step { failed with port := [0x7000000000000000#64] } = .fault (.stuck (outOfRange 0x10000)) := by
  rfl
/-- R83: the first command after reset; IME is false there, and SETIME 1 makes it true. -/
theorem test_step_reset : after (step (State.reset.withFetchWord 64 0xD100000000000000)) (·.ime) = some true := by decide

/-! ## Assembler lines (R50, R51) -/

/-- R51: PRESS UP and RELEASE START; the word column is 0xBB… and 0xA7…. -/
theorem test_asm_buttons : assembleLine "PRESS UP".toList = .ok (some (.pressd 0xB#4)) ∧
    assembleLine "RELEASE START ; up again".toList = .ok (some (.unpressb 0x7#4)) := by decide
/-- R51: DMA p, and R50: WRITE2's argument order, with the three number forms. -/
theorem test_asm_operands : assembleLine "DMA 0x83".toList = .ok (some (.write 0xFF46#16 0x83#16)) ∧
    assembleLine "WRITE2 0xC000, 243, 0b101100".toList = .ok (some (.write2 0xC000#16 0xF3#8 0x2C#8)) := by decide
/-- R50: an operand that does not fit is an error. -/
theorem test_asm_tooLarge : assembleLine "READ 0x10000".toList = .error .operandTooLarge ∧
    assembleLine "READRANGE 0xFFFE, 0x10000".toList = .ok (some (.readrange 0xFFFE#16 0x10000#17)) := by decide

/-! ## Witnesses: the hypotheses of each statement, met together -/

/-- The block of the witnesses: OAM source bytes, JOYP, IF and IE. -/
def sample : State := block [(0x8300, 0x5A#8), (0x839F, 0xC5#8), (0xFF00, 0x1F#8), (0xFF0F, 0xE5#8), (0xFFFF, 0x07#8)]

theorem sample_running : sample.fault = none ∧ Memory.wf sample.mem := by decide

theorem test_witness_EncodedInstructionDecodesBack :
    Instr.wellFormed (.readrange 0xFFFF#16 0x1FFFF#17) = true ∧
    encode (.readrange 0xFFFF#16 0x1FFFF#17) = some 0x30FFFF01FFFF0000#64 := by decide
theorem test_witness_DecodedWordIsTheEncoding : decode 0x60FFFF000000FFFF#64 = .ok (.write16 0xFFFF#16 0xFFFF#16) := by decide
theorem test_witness_OpcodeRowsDoNotOverlap :
    (0xFFFFFFFFFFFFFFFF#64, 0x7000000000000000#64) ∈ opcodeMap ∧
    0x7000000000000000#64 &&& 0xFFFFFFFFFFFFFFFF#64 = 0x7000000000000000#64 := by decide
theorem test_witness_InternalOperationsHaveNoWord : decode 0x40FF000000000020#64 = .ok (.write 0xFF00#16 0x20#16) := by
  decide
theorem test_witness_AssembledLineHasALegalWord :
    assembleLine "SETINT TIMER".toList = .ok (some (.setint .timer)) := by decide
theorem test_witness_StepRunsTheDecodedCommand : sample.fault = none ∧
    ({ sample with port := [0x7000000000000000#64] } : State).port = 0x7000000000000000#64 :: [] ∧
    decode 0x7000000000000000#64 = .ok .checkint := by decide
/-- A word of each kind of R47. -/
theorem test_witness_StepRefusesAnIllegalWord : sample.fault = none ∧ IllegalKind 0xE000000000000000#64 ∧
    IllegalKind 0x8F00000000000000#64 ∧ IllegalKind 0x8700000000000000#64 := by
  unfold IllegalKind; decide
theorem test_witness_IdleStepChangesNothing : sample.fault = none ∧ sample.port = [] := by decide
theorem test_witness_FaultedStateAcceptsNothing : failed.fault = some (outOfRange 0x10000) := by decide
/-- Each form of the statement faults somewhere. -/
theorem test_witness_OnlyListedFormsFault :
    (∃ t, exec (.read16 0xFFFF#16) sample = .next t ∧ t.fault ≠ none) ∧
    (∃ t, exec (.readrange 0#16 0x10001#17) sample = .next t ∧ t.fault ≠ none) ∧
    (∃ t, exec (.write2 0xFFFF#16 1#8 2#8) sample = .next t ∧ t.fault ≠ none) ∧
    (∃ t, exec (.write16 0xFFFF#16 0x1234#16) sample = .next t ∧ t.fault ≠ none) ∧
    (∃ t, exec .checkint { sample with ime := true, cpuCalls := [[0x20FFFF0000000000#64]] } = .next t ∧
      t.fault ≠ none) :=
  ⟨⟨_, rfl, by decide⟩, ⟨_, rfl, by decide⟩, ⟨_, rfl, by decide⟩, ⟨_, rfl, by decide⟩, ⟨_, rfl, by decide⟩⟩
theorem test_witness_BootstrapStoresItsTable : sample.fault = none ∧ Memory.wf sample.mem ∧
    bootTableOk Config.sampleBootTable = true := by decide
theorem test_witness_BootstrapOrderDoesNotMatter : Memory.wf sample.mem ∧ bootTableOk Config.sampleBootTable = true ∧
    Config.sampleBootTable.Perm Config.sampleBootTable.reverse :=
  ⟨by decide, by decide, (List.reverse_perm _).symm⟩
theorem test_witness_BootstrapRejectsABadTable : sample.fault = none ∧ bootTableOk [(0x4000#16, 0x55#8)] = false := by
  decide
theorem test_witness_ReadAnswersTheCell : sample.fault = none := sample_running.1
/-- The last address of the first clause and the one of the second. -/
theorem test_witness_Read16AnswersThePair : sample.fault = none ∧ (0xFFFE#16).toNat < 0xFFFF ∧
    (0xFFFF#16).toNat = 0xFFFF := by decide
/-- The last end of the first clause and the first of the second. -/
theorem test_witness_ReadRangeAnswersTheBytes : sample.fault = none ∧ (0x10000#17).toNat ≤ 0x10000 ∧
    0x10000 < (0x10001#17).toNat := by decide
theorem test_witness_WriteHasTheDispatchedEffect : sample.fault = none ∧ Memory.wf sample.mem := sample_running
theorem test_witness_TwoByteWriteIsTwoDispatchedWrites : sample.fault = none ∧ Memory.wf sample.mem ∧
    (0x1234#16).toNat = (0x12#8).toNat * 256 + (0x34#8).toNat ∧ (0xFFFE#16).toNat < 0xFFFF ∧
    (0xFFFF#16).toNat = 0xFFFF := by decide
theorem test_witness_SplitWritesFireTheirHandlers : sample.fault = none ∧ Memory.wf sample.mem ∧
    (0x8312#16).toNat = (0x83#8).toNat * 256 + (0x12#8).toNat := by decide
theorem test_witness_WriteThenReadAnswersTheByte : sample.fault = none ∧ Memory.wf sample.mem ∧
    0x8000 ≤ (0x8000#16).toNat ∧ 0x8000#16 ≠ 0xFF00#16 ∧ 0x8000#16 ≠ 0xFF46#16 := by decide
theorem test_witness_Write16ThenRead16AnswersTheValue : sample.fault = none ∧ Memory.wf sample.mem ∧
    0x8000 ≤ (0xFFFE#16).toNat ∧ (0xFFFE#16).toNat < 0xFFFF ∧ 0xFFFE#16 ≠ 0xFF00#16 ∧ 0xFFFE#16 ≠ 0xFF46#16 ∧
    0xFFFE#16 ≠ 0xFEFF#16 ∧ 0xFFFE#16 ≠ 0xFF45#16 := by decide
theorem test_witness_RawStoreWritesOneCell : sample.fault = none ∧ Memory.wf sample.mem ∧
    0x8000 ≤ (0x8000#16).toNat := by decide
theorem test_witness_RawStoreBelowTheGuardIsRefused : sample.fault = none ∧ (0x7FFF#16).toNat < 0x8000 := by decide
theorem test_witness_DmaCopiesThePage : sample.fault = none ∧ Memory.wf sample.mem := sample_running
theorem test_witness_DmaOfItsOwnPageChangesNothing : sample.fault = none ∧ Memory.wf sample.mem := sample_running
set_option maxRecDepth 8000 in
/-- Between the two DMAs a cell of another page is written. -/
theorem test_witness_DmaTwiceLeavesTheSameOam :
    ∃ t u w : State, Memory.wf sample.mem ∧ Memory.wf u.mem ∧ exec (.dma 0x83#8) sample = .next t ∧
      (∀ k < 256, Memory.read u.mem ((0x83#8).toNat * 256 + k) = Memory.read t.mem ((0x83#8).toNat * 256 + k)) ∧
      (∀ k < 160, Memory.read u.mem (0xFE00 + k) = Memory.read t.mem (0xFE00 + k)) ∧
      exec (.dma 0x83#8) u = .next w :=
  ⟨block [(0x8300, 0x5A#8), (0x839F, 0xC5#8), (0xFE00, 0x5A#8), (0xFE9F, 0xC5#8), (0xFF00, 0x1F#8), (0xFF0F, 0xE5#8),
      (0xFFFF, 0x07#8)],
    block [(0x8300, 0x5A#8), (0x839F, 0xC5#8), (0xC000, 0x77#8), (0xFE00, 0x5A#8), (0xFE9F, 0xC5#8), (0xFF00, 0x1F#8),
      (0xFF0F, 0xE5#8), (0xFFFF, 0x07#8)],
    block [(0x8300, 0x5A#8), (0x839F, 0xC5#8), (0xC000, 0x77#8), (0xFE00, 0x5A#8), (0xFE9F, 0xC5#8), (0xFF00, 0x1F#8),
      (0xFF0F, 0xE5#8), (0xFFFF, 0x07#8)],
    by decide, by decide, by rfl, by decide, by decide, by rfl⟩
theorem test_witness_UpdateJoypStoresTheMultiplexedValue : sample.fault = none ∧ Memory.wf sample.mem := sample_running
theorem test_witness_PressClearsLinesAndRequestsInput : sample.fault = none ∧ Memory.wf sample.mem := sample_running
theorem test_witness_UnpressSetsLinesOnly : sample.fault = none := sample_running.1
theorem test_witness_OnlyJoypadCommandsChangeTheMasks :
    (∃ t, exec (.pressb 0xE#4) sample = .next t ∧ t.btn ≠ sample.btn) ∧
    (∃ t, exec (.pressd 0xB#4) sample = .next t ∧ t.dpad ≠ sample.dpad) :=
  ⟨⟨_, rfl, by decide⟩, ⟨_, rfl, by decide⟩⟩
theorem test_witness_JoypRegisterIsASnapshot :
    (∃ t, exec (.write 0xFF00#16 0x20#16) sample = .next t ∧ Memory.read t.mem 0xFF00 ≠ Memory.read sample.mem 0xFF00) ∧
    (∃ t, exec (.write16 0xFEFF#16 0x2011#16) sample = .next t ∧
      Memory.read t.mem 0xFF00 ≠ Memory.read sample.mem 0xFF00) ∧
    (∃ t, exec .checkint { sample with ime := true, cpuCalls := [[0x40FF000000000020#64]] } = .next t ∧
      Memory.read t.mem 0xFF00 ≠ Memory.read sample.mem 0xFF00) :=
  ⟨⟨_, rfl, by decide⟩, ⟨_, rfl, by decide⟩, ⟨_, rfl, by decide⟩⟩
theorem test_witness_SetintSetsOneRequestBit : 5 ≤ (5#3).toNat ∧ sample.fault = none ∧ Memory.wf sample.mem := by decide
theorem test_witness_RequestsAccumulateInAnyOrder : sample.fault = none ∧ Memory.wf sample.mem := sample_running
theorem test_witness_SetimeWritesIme : sample.fault = none := sample_running.1
/-- TIMER's bit is cleared by its dispatch, bit 7 by a Call's WRITE to 0xFF0F. -/
theorem test_witness_OnlyDispatchOrAWriteClearsARequest : Memory.wf sample.mem ∧
    (Memory.read sample.mem 0xFF0F).getLsbD 2 = true ∧
    (∃ t, exec .checkint { sample with ime := true } = .next t ∧ (Memory.read t.mem 0xFF0F).getLsbD 2 = false) ∧
    (Memory.read sample.mem 0xFF0F).getLsbD 7 = true ∧
    ∃ t, exec .checkint { sample with ime := true, cpuCalls := [[0x40FF0F0000000000#64]] } = .next t ∧
      (Memory.read t.mem 0xFF0F).getLsbD 7 = false :=
  ⟨by decide, by decide, ⟨_, rfl, by decide⟩, by decide, _, rfl, by decide⟩
theorem test_witness_TheBlockNeverWritesIeByItself :
    (∃ t, exec (.write16 0xFFFE#16 0x1F99#16) sample = .next t ∧
      Memory.read t.mem 0xFFFF ≠ Memory.read sample.mem 0xFFFF) ∧
    (∃ t, exec .checkint { sample with ime := true, cpuCalls := [[0x40FFFF0000000000#64]] } = .next t ∧
      Memory.read t.mem 0xFFFF ≠ Memory.read sample.mem 0xFFFF) :=
  ⟨⟨_, rfl, by decide⟩, ⟨_, rfl, by decide⟩⟩
theorem test_witness_ImeHasTwoWriters : ∃ t, exec (.setime true) sample = .next t ∧ t.ime ≠ sample.ime :=
  ⟨_, rfl, by decide⟩
theorem test_witness_CheckintAlwaysCompletes : sample.fault = none := sample_running.1
/-- I5. -/
theorem test_witness_CheckintWithoutRequestsDoesNothing : (armed [(0xFF0F, 0xE0#8), (0xFFFF, 0xE0#8)]).fault = none ∧
    Memory.read (armed [(0xFF0F, 0xE0#8), (0xFFFF, 0xE0#8)]).mem 0xFFFF &&&
      Memory.read (armed [(0xFF0F, 0xE0#8), (0xFFFF, 0xE0#8)]).mem 0xFF0F &&& 0x1F#8 = 0#8 := by decide
/-- I7: five lines are requested. -/
theorem test_witness_CheckintWithImeFalseOnlyWakes : (block [(0xFF0F, 0x1F#8), (0xFFFF, 0x1F#8)]).fault = none ∧
    (block [(0xFF0F, 0x1F#8), (0xFFFF, 0x1F#8)]).ime = false ∧
    (requestedLines (block [(0xFF0F, 0x1F#8), (0xFFFF, 0x1F#8)])).length = 5 := by decide
theorem test_witness_CheckintDispatchesEveryRequestedLine :
    let s : State := { sample with ime := true, cpuCalls := [[], []] }
    s.fault = none ∧ Memory.wf s.mem ∧ s.ime = true ∧ (∀ ws ∈ s.cpuCalls, ws = []) ∧
      requestedLines s = [.vblank, .timer] := by decide
/-- S7. -/
theorem test_witness_WorkedCheckintCallsTwoVectors : let s := armed [(0xFF0F, 0x05#8), (0xFFFF, 0x07#8)]
    s.fault = none ∧ Memory.wf s.mem ∧ s.ime = true ∧ s.cpuCalls = [] ∧ Memory.read s.mem 0xFFFF = 0b00111#8 ∧
      Memory.read s.mem 0xFF0F = 0b00101#8 := by decide
/-- P4. -/
theorem test_witness_PushOntoIeStopsLaterLines :
    let s : State := { armed [(0xFF0F, 0x05#8), (0xFFFF, 0x05#8)] with
                       cpuCalls := [[0x40FFFF0000000000#64, 0x40FFFE0000000034#64]] }
    s.fault = none ∧ Memory.wf s.mem ∧ s.ime = true ∧
      s.cpuCalls = [0x40FFFF0000000000#64, 0x40FFFE0000000034#64] :: [] ∧ Memory.read s.mem 0xFFFF = 0x05#8 ∧
      Memory.read s.mem 0xFF0F = 0x05#8 := by decide
theorem test_witness_CheckintCallsInPriorityOrder :
    ∃ t, exec .checkint { sample with ime := true } = .next t ∧ calledVectors t.trace = [0x0040#16, 0x0050#16] :=
  ⟨_, rfl, by decide⟩
theorem test_witness_CallFaultEndsTheCheckint :
    let s : State := { armed [(0xFF0F, 0x1F#8), (0xFFFF, 0x1F#8)] with cpuCalls := [[0x60FFFF0000001234#64]] }
    s.fault = none ∧ Memory.wf s.mem ∧ s.ime = true ∧
      s.cpuCalls = ((0x60FFFF0000000000#64 ||| (0x1234#16).zeroExtend 64) :: []) :: [] ∧
      Memory.read s.mem 0xFFFF = 0x1F#8 ∧ Memory.read s.mem 0xFF0F = 0x1F#8 := by decide
/-- READ, then READ16 at 0xFFFF, then WRITE, in the first Call; the first requested line is TIMER. -/
theorem test_witness_RaisingCallCommandEndsTheCheckint :
    let s : State := { armed [(0xFF0F, 0x14#8), (0xFFFF, 0x1F#8)] with
                       cpuCalls := [[0x10C0000000000000#64, 0x20FFFF0000000000#64, 0x40C000000000005A#64]] }
    s.fault = none ∧ s.ime = true ∧ requestedLines s = .timer :: [.input] ∧
      s.cpuCalls = ([0x10C0000000000000#64] ++ 0x20FFFF0000000000#64 :: [0x40C000000000005A#64]) :: [] ∧
      decode 0x20FFFF0000000000#64 = .ok (.read16 0xFFFF#16) ∧ RaisesOutOfRange (.read16 0xFFFF#16) ∧
      decode 0x10C0000000000000#64 = .ok (.read 0xC000#16) ∧ ¬ RaisesOutOfRange (.read 0xC000#16) :=
  ⟨by decide, by decide, by decide, by decide, by decide, .inl rfl, by decide, by simp [RaisesOutOfRange]⟩
/-- P4 with one more Call; then the Call completes, and with READ16 at 0xFFFF in its place it raises. -/
theorem test_witness_CheckintRereadsIeAndIfAfterACall :
    let s : State := { armed [(0xFF0F, 0x05#8), (0xFFFF, 0x05#8)] with
                       cpuCalls := [[0x40FFFF0000000000#64, 0x40FFFE0000000034#64], []] }
    s.fault = none ∧ Memory.wf s.mem ∧ s.ime = true ∧ requestedLines s = .vblank :: [.timer] ∧
      s.cpuCalls = [0x40FFFF0000000000#64, 0x40FFFE0000000034#64] :: [[]] ∧
      (∀ c ∈ ([[]] : List (List Command)), c = []) ∧
      (∃ u, callCommands [0x40FFFF0000000000#64, 0x40FFFE0000000034#64] s = .ok () u) ∧
      ∃ addr u, callCommands [0x20FFFF0000000000#64] s = .raised addr u :=
  ⟨by decide, by decide, by decide, by decide, by decide, by decide, ⟨_, rfl⟩, _, _, rfl⟩
/-- One CHECKINT without a fault, and one whose second Call faults. -/
theorem test_witness_NothingFollowsAFaultOfACall :
    (∃ t, exec .checkint { sample with ime := true } = .next t ∧ t.fault = none) ∧
    ∃ t, exec .checkint { sample with ime := true, cpuCalls := [[], [0x20FFFF0000000000#64]] } = .next t ∧
      t.fault ≠ none :=
  ⟨⟨_, rfl, by decide⟩, _, rfl, by decide⟩
/-- A command that completes, and one that raises. -/
theorem test_witness_CallCommandsHaveTheirFullEffect : sample.fault = none ∧
    decode 0x40FF460000000083#64 = .ok (.write 0xFF46#16 0x83#16) ∧
    decode 0x60FFFF0000001234#64 = .ok (.write16 0xFFFF#16 0x1234#16) ∧
    after (exec (.write 0xC000#16 0x5A#16) sample) (·.fault) = some none ∧
    after (exec (.write16 0xFFFF#16 0x1234#16) sample) (·.fault) = some (some (outOfRange 0x10000)) ∧
    callCommand 0x7000000000000001#64 sample = .ok () (refuseInCall sample) ∧
    ∃ u, callCommand 0x60FFFF0000001234#64 sample = .raised 0x10000 u :=
  ⟨by decide, by decide, by decide, by decide, by decide, by rfl, _, rfl⟩
/-- A CHECKINT, a SETINT and a joypad word, and an illegal word of each kind. -/
theorem test_witness_CallOutsideTheContractIsRefused : decode 0x7000000000000000#64 = .ok .checkint ∧
    decode 0x8200000000000000#64 = .ok (.setint .timer) ∧ decode 0xD100000000000000#64 = .ok (.setime true) ∧
    decode 0x9E00000000000000#64 = .ok (.pressb 0xE#4) ∧ decode 0xAE00000000000000#64 = .ok (.unpressb 0xE#4) ∧
    decode 0xBB00000000000000#64 = .ok (.pressd 0xB#4) ∧ decode 0xCB00000000000000#64 = .ok (.unpressd 0xB#4) ∧
    IllegalKind 0x0000000000000000#64 ∧ IllegalKind 0x7000000000000001#64 ∧ IllegalKind 0x8500000000000000#64 := by
  unfold IllegalKind; decide
/-- A constructed block with one command waiting meets the invariant, and steps. -/
theorem test_witness_EveryStepKeepsTheInvariant :
    Inv { State.construction with port := [0xD100000000000000#64] } ∧
    ∃ t, step { State.construction with port := [0xD100000000000000#64] } = .next t ∧ t.ime = true :=
  ⟨{ canonical := wf_initImage
     image := fun a h => read_initImage (by rcases h with h | h <;> omega)
     faultAddr := fun f h => nomatch h
     faultAnswered := fun f h => nomatch h
     refusalMarked := fun h => by simp [State.construction] at h },
   _, rfl, by decide⟩
theorem test_witness_NoStepWritesRomOrTheDmaCell : NeverWritten 0x7FFF ∧ NeverWritten 0xFF46 ∧
    ∃ t, step { sample with port := [0x40C000000000005A#64] } = .next t ∧ t.mem ≠ sample.mem :=
  ⟨by unfold NeverWritten; omega, by unfold NeverWritten; omega, _, rfl, by decide⟩
theorem test_witness_EachCommandHasOneResponseLast :
    (∃ t, exec .checkint sample = .next t ∧ encode .checkint ≠ none) ∧
    (∃ t, exec (.updatejoyp 0x10#8) sample = .next t ∧ encode (.updatejoyp 0x10#8) = none) :=
  ⟨⟨_, rfl, by decide⟩, ⟨_, rfl, by decide⟩⟩
theorem test_witness_NoCommandDependsOnThePort : ∃ t, exec .checkint { sample with ime := true } = .next t :=
  ⟨_, rfl⟩

end Sys2Proof.Tests
end

/-! # Scope (00_scope.md): a step runs the decoded command (O8), and no command looks at the port (O58) -/

namespace Sys2Proof.Machine

/-! ## Taking a command from the port -/

theorem takeCommand_of_decode {s : State} {w : Command} {rest : List Command} {i : Instr} (hp : s.port = w :: rest)
    (hd : decode w = .ok i) : takeCommand s = .command i (s.setPort rest) := by
  simp only [takeCommand, hp, hd]

/-- Settles O8: a block without a fault accepts, and what the port offers is the decoded command. -/
theorem stepRunsTheDecodedCommand : Obligations.StepRunsTheDecodedCommand := by
  intro s w rest i hf hp hd
  rw [step, accept_of_none hf, takeCommand_of_decode hp hd]
  rfl

/-! ## Replacing the waiting commands

Every operation commutes with replacing the port: run on another port, it ends the same way, in the same
state but for that port. -/

/-- The same result, with other commands waiting. -/
def Res.withPort {α : Type} (ws : List Command) (r : Res α) : Res α :=
  match r with
  | .ok a s => .ok a (s.setPort ws)
  | .raised addr s => .raised addr (s.setPort ws)

@[simp] theorem Res.withPort_ok {α : Type} (ws : List Command) (a : α) (s : State) :
    (Res.ok a s).withPort ws = .ok a (s.setPort ws) := rfl

@[simp] theorem Res.withPort_raised {α : Type} (ws : List Command) (addr : Nat) (s : State) :
    (Res.raised addr s : Res α).withPort ws = .raised addr (s.setPort ws) := rfl

/-- The same outcome, with other commands waiting in the next state. -/
def outcomeWithPort (ws : List Command) (o : Host.Outcome State Fault Refusal) : Host.Outcome State Fault Refusal :=
  match o with
  | .next s => .next (s.setPort ws)
  | .fault r => .fault r
  | .refused r => .refused r

@[simp] theorem outcomeWithPort_next (ws : List Command) (s : State) :
    outcomeWithPort ws (.next s) = .next (s.setPort ws) := rfl

/-- An operation inside a command that neither reads nor changes the port. -/
def PortBlind {α : Type} (f : State → Res α) : Prop :=
  ∀ (ws : List Command) (s : State), f (s.setPort ws) = (f s).withPort ws

/-- A whole command that neither reads nor changes the port. -/
def OutcomePortBlind (run : State → Host.Outcome State Fault Refusal) : Prop :=
  ∀ (ws : List Command) (s : State), run (s.setPort ws) = outcomeWithPort ws (run s)

/-! ### How port-blind operations are put together -/

theorem portBlind_ok {α : Type} {a : α} {f : State → State} (h : ∀ ws s, f (s.setPort ws) = (f s).setPort ws) :
    PortBlind fun s => .ok a (f s) :=
  fun ws s => congrArg (Res.ok a) (h ws s)

theorem PortBlind.andThen {α β : Type} {f : State → Res α} {g : α → State → Res β} (hf : PortBlind f)
    (hg : ∀ a, PortBlind (g a)) : PortBlind fun s => (f s).andThen g := by
  intro ws s
  simp only [hf ws s]
  cases f s with
  | ok a t => exact hg a ws t
  | raised addr t => rfl

/-- An operation after a field update that does not concern the port. -/
theorem PortBlind.after {α : Type} {f : State → Res α} (hf : PortBlind f) {g : State → State}
    (hg : ∀ ws s, g (s.setPort ws) = (g s).setPort ws) : PortBlind fun s => f (g s) :=
  fun ws s => by simp only [hg, hf ws (g s)]

theorem PortBlind.thenDone {f : State → Res Unit} (hf : PortBlind f) : PortBlind fun s => thenDone (f s) :=
  hf.andThen fun _ => portBlind_ok fun _ _ => rfl

theorem PortBlind.complete {f : State → Res Response} (hf : PortBlind f) :
    OutcomePortBlind fun s => complete (f s) := by
  intro ws s
  simp only [hf ws s]
  cases f s <;> rfl

theorem PortBlind.settle {f : State → Res Unit} (hf : PortBlind f) : OutcomePortBlind fun s => settle (f s) := by
  intro ws s
  simp only [hf ws s]
  cases f s <;> rfl

theorem OutcomePortBlind.accept {run : State → Host.Outcome State Fault Refusal} (hr : OutcomePortBlind run) :
    OutcomePortBlind fun s => accept s run := by
  intro ws s
  rcases hf : s.fault with _ | f
  · simp only [accept_of_none hf, accept_of_none (s := s.setPort ws) hf, hr ws s]
  · simp only [accept_of_some hf, accept_of_some (s := s.setPort ws) hf, outcomeWithPort]

/-- A command the model may refuse by its operands alone. -/
theorem OutcomePortBlind.guard {run : State → Host.Outcome State Fault Refusal} (hr : OutcomePortBlind run) (c : Bool)
    (why : Refusal) : OutcomePortBlind fun s => if c then run s else .refused why := by
  cases c with
  | true => exact hr
  | false => exact fun _ _ => rfl

/-! ### The access primitives -/

theorem portBlind_memRead (a : Nat) : PortBlind (memRead a) := by
  intro ws s
  by_cases h : 0xFFFF < a
  · simp only [memRead_outOfRange h, Res.withPort_raised]
  · simp only [memRead_inRange (Nat.not_lt.mp h), Res.withPort_ok, State.setPort_mem]

theorem portBlind_dmaTransfer (v : Byte) : PortBlind (dmaTransfer v) := by
  intro ws s
  rw [dmaTransfer_eq, dmaTransfer_eq]
  rfl

/-- A write: one case for each step of the dispatcher (20_memory.md R28). -/
theorem portBlind_memWrite (a value : Nat) : PortBlind (memWrite a value) := by
  intro ws s
  by_cases hrom : a < 0x8000
  · rw [memWrite_rom _ _ hrom, memWrite_rom _ _ hrom]; rfl
  by_cases hjoyp : a = 0xFF00
  · subst hjoyp; rw [memWrite_joyp, memWrite_joyp]; rfl
  by_cases hdma : a = 0xFF46
  · subst hdma; rw [memWrite_dma, memWrite_dma]; exact portBlind_dmaTransfer _ ws s
  by_cases hout : 0xFFFF < a
  · rw [memWrite_outOfRange _ _ hout, memWrite_outOfRange _ _ hout]; rfl
  · have plain := fun t => memWrite_plain value t (Nat.not_lt.mp hrom) hjoyp hdma (Nat.not_lt.mp hout)
    rw [plain, plain]; rfl

theorem portBlind_memRead16 (a : Nat) : PortBlind (memRead16 a) :=
  (portBlind_memRead a).andThen fun _ => (portBlind_memRead (a + 1)).andThen fun _ => portBlind_ok fun _ _ => rfl

theorem portBlind_memWrite16 (a : Nat) (lo hi : Byte) : PortBlind (memWrite16 a lo hi) :=
  (portBlind_memWrite a lo.toNat).andThen fun _ => portBlind_memWrite (a + 1) hi.toNat

theorem portBlind_memReadRange (start stop : Nat) : PortBlind (memReadRange start stop) := by
  intro ws s
  rw [memReadRange_eq, memReadRange_eq]
  split <;> rfl

theorem portBlind_applyBootTable (table : List BootEntry) : PortBlind (applyBootTable table) := by
  induction table with
  | nil => exact portBlind_ok fun _ _ => rfl
  | cons e rest ih => exact (portBlind_memWrite e.1.toNat e.2.toNat).andThen fun _ => ih

/-! ### The memory commands -/

theorem portBlind_readCommand (a : U16) : PortBlind (readCommand a) :=
  (portBlind_memRead a.toNat).andThen fun _ => portBlind_ok fun _ _ => rfl

theorem portBlind_read16Command (a : U16) : PortBlind (read16Command a) :=
  (portBlind_memRead16 a.toNat).andThen fun _ => portBlind_ok fun _ _ => rfl

theorem portBlind_readrangeCommand (start : U16) (stop : U17) : PortBlind (readrangeCommand start stop) :=
  (portBlind_memReadRange start.toNat stop.toNat).andThen fun _ => portBlind_ok fun _ _ => rfl

theorem portBlind_writeCommand (a v : U16) : PortBlind (writeCommand a v) :=
  (portBlind_memWrite a.toNat v.toNat).thenDone

theorem portBlind_write2Command (a : U16) (hi lo : Byte) : PortBlind (write2Command a hi lo) :=
  (portBlind_memWrite16 a.toNat lo hi).thenDone

theorem portBlind_write16Command (a v : U16) : PortBlind (write16Command a v) :=
  (portBlind_memWrite16 a.toNat (lo8 v) (hi8 v)).thenDone

theorem portBlind_memoryCommand {i : Instr} {act : State → Res Response} (h : memoryCommand i = some act) :
    PortBlind act := by
  cases i <;> simp only [memoryCommand, Option.some.injEq, reduceCtorEq] at h <;> subst h
  case read a => exact portBlind_readCommand a
  case read16 a => exact portBlind_read16Command a
  case readrange start stop => exact portBlind_readrangeCommand start stop
  case write a v => exact portBlind_writeCommand a v
  case write2 a hi lo => exact portBlind_write2Command a hi lo
  case write16 a v => exact portBlind_write16Command a v

/-! ### Interrupt entry and CHECKINT -/

theorem portBlind_requestLine (l : Line) : PortBlind (requestLine l) :=
  (portBlind_memRead ifAddr).andThen fun v => portBlind_memWrite ifAddr (withRequest l v).toNat

/-- A word of a Call is the Call's own, and leaves those of the port waiting. -/
theorem portBlind_callCommand (w : Command) : PortBlind (callCommand w) := by
  intro ws s
  unfold callCommand
  split
  · rfl
  · split
    · rfl
    · next act hact =>
      rw [portBlind_memoryCommand hact ws s]
      cases act s <;> rfl

theorem portBlind_callCommands (cs : List Command) : PortBlind (callCommands cs) := by
  induction cs with
  | nil => exact portBlind_ok fun _ _ => rfl
  | cons c cs ih => exact (portBlind_callCommand c).andThen fun _ => ih

theorem portBlind_cpuCall : PortBlind cpuCall := by
  intro ws s
  unfold cpuCall
  rw [State.setPort_cpuCalls]
  split
  · rfl
  · next cs rest _ => exact portBlind_callCommands cs ws (s.setCalls rest)

theorem portBlind_dispatchLine (l : Line) : PortBlind (dispatchLine l) :=
  (portBlind_memRead ifAddr).andThen fun v =>
    (portBlind_memWrite ifAddr (withoutRequest l v).toNat).andThen fun _ =>
      portBlind_cpuCall.after (g := fun s => (s.setIme false).push (.call (lineVector l))) fun _ _ => rfl

theorem portBlind_checkLine (ime0 : Bool) (l : Line) : PortBlind (checkLine ime0 l) := by
  intro ws s
  rw [checkLine_eq, checkLine_eq, State.setPort_mem]
  split
  · split
    · exact portBlind_dispatchLine l ws (s.push .wake)
    · rfl
  · rfl

theorem portBlind_checkLines (ime0 : Bool) (ls : List Line) : PortBlind (checkLines ime0 ls) := by
  induction ls with
  | nil => exact portBlind_ok fun _ _ => rfl
  | cons l ls ih => exact (portBlind_checkLine ime0 l).andThen fun _ => ih

/-- CHECKINT samples IME at entry, which the port does not change. -/
theorem portBlind_checkintLines (ls : List Line) : PortBlind fun s => checkLines s.ime ls s :=
  fun ws s => portBlind_checkLines s.ime ls ws s

/-! ### Every instruction -/

theorem exec_portBlind (i : Instr) : OutcomePortBlind (exec i) := by
  cases i with
  | read a => exact (portBlind_readCommand a).complete.accept
  | read16 a => exact (portBlind_read16Command a).complete.accept
  | readrange start stop => exact (portBlind_readrangeCommand start stop).complete.accept
  | write a v => exact (portBlind_writeCommand a v).complete.accept
  | write2 a hi lo => exact (portBlind_write2Command a hi lo).complete.accept
  | write16 a v => exact (portBlind_write16Command a v).complete.accept
  | checkint => exact (portBlind_checkintLines linesInPriority).thenDone.complete.accept
  | setint l => exact (portBlind_requestLine l).thenDone.complete.accept
  | pressb m => exact ((portBlind_requestLine .input).after fun _ _ => rfl).thenDone.complete.accept
  | unpressb m => exact (portBlind_ok fun _ _ => rfl).complete.accept
  | pressd m => exact ((portBlind_requestLine .input).after fun _ _ => rfl).thenDone.complete.accept
  | unpressd m => exact (portBlind_ok fun _ _ => rfl).complete.accept
  | setime b => exact (portBlind_ok fun _ _ => rfl).complete.accept
  | updatejoyp sel => exact (portBlind_ok fun _ _ => rfl).settle.accept
  | dma v => exact (portBlind_dmaTransfer v).settle.accept
  | rawstore a b => exact ((portBlind_ok fun _ _ => rfl).settle.guard _ _).accept
  | bootstrap table => exact ((portBlind_applyBootTable table).settle.guard _ _).accept

/-- Settles O58: `exec` commutes with replacing the port, here where it answers a next state. -/
theorem noCommandDependsOnThePort : Obligations.NoCommandDependsOnThePort := by
  intro i s t ws h
  show exec i (s.setPort ws) = .next (t.setPort ws)
  rw [exec_portBlind i ws s, h, outcomeWithPort_next]

end Sys2Proof.Machine

/-! # The state (10_state.md): FAULT (O11), the writers of IE (O39), of IME (O40) and of the joypad masks (O33) -/

namespace Sys2Proof.Machine

/-! ## FAULT stops the block -/

/-- Every meaning begins by testing FAULT. -/
theorem exec_eq_accept (i : Instr) : ∃ run, ∀ s, exec i s = accept s run := by
  cases i <;> exact ⟨_, fun _ => rfl⟩

theorem exec_of_fault {s : State} {f : FaultRecord} (h : s.fault = some f) (i : Instr) :
    exec i s = .fault (.stuck f) := by
  obtain ⟨run, hrun⟩ := exec_eq_accept i
  rw [hrun, accept_of_some h]

theorem step_of_fault {s : State} {f : FaultRecord} (h : s.fault = some f) : step s = .fault (.stuck f) :=
  accept_of_some h _

/-- Settles O11: FAULT is none at construction, and `accept`, with which `step` and every meaning begin, is stuck
once it is set. -/
theorem faultedStateAcceptsNothing : Obligations.FaultedStateAcceptsNothing :=
  ⟨construction_fault, fun _ _ h => ⟨step_of_fault h, exec_of_fault h⟩⟩

/-! ## How a command's end relates to the state its body leaves -/

/-- IME, BTN and DPAD are as before. -/
def SameControls (s t : State) : Prop := t.ime = s.ime ∧ t.btn = s.btn ∧ t.dpad = s.dpad

theorem SameControls.trans {s t u : State} (h1 : SameControls s t) (h2 : SameControls t u) : SameControls s u := by
  obtain ⟨i1, b1, d1⟩ := h1
  obtain ⟨i2, b2, d2⟩ := h2
  exact ⟨i2.trans i1, b2.trans b1, d2.trans d1⟩

theorem MemOnly.sameControls {s t : State} (h : MemOnly s t) : SameControls s t := by
  obtain ⟨hime, hbtn, hdpad, -⟩ := h.fields
  exact ⟨hime, hbtn, hdpad⟩

/-- The response, or the fault taken, changes neither memory nor IME, BTN and DPAD. -/
theorem Ends.complete {r : Res Response} {R : State → Prop} (hr : Ends r R) {t : State}
    (h : Machine.complete r = .next t) : ∃ u, R u ∧ t.mem = u.mem ∧ SameControls u t := by
  rcases complete_next h with ⟨a, u, rfl, rfl⟩ | ⟨addr, u, rfl, rfl⟩
  · rcases hr with ⟨_, _, e, hu⟩ | ⟨_, e, _⟩ <;> cases e
    exact ⟨u, hu, rfl, rfl, rfl, rfl⟩
  · exact ⟨u, (hr.raised rfl).2, rfl, rfl, rfl, rfl⟩

theorem Ends.thenDone {r : Res Unit} {R : State → Prop} (hr : Ends r R) : Ends (Machine.thenDone r) R :=
  hr.andThen (fun _ _ h => .ok h) fun _ h => h

/-- At the port a memory command runs the body it has inside a Call. -/
theorem exec_memoryCommand {i : Instr} {act : State → Res Response} (hm : memoryCommand i = some act) {s : State}
    (hf : s.fault = none) : exec i s = complete (act s) := by
  cases i <;> simp only [memoryCommand, Option.some.injEq, reduceCtorEq] at hm <;> subst hm
  case read a => exact exec_read hf a
  case read16 a => exact exec_read16 hf a
  case readrange a e => exact exec_readrange hf a e
  case write a v => exact exec_write hf a v
  case write2 a hi lo => exact exec_write2 hf a hi lo
  case write16 a v => exact exec_write16 hf a v

theorem exec_memoryCommand_sameControls {i : Instr} {act : State → Res Response} (hm : memoryCommand i = some act)
    {s t : State} (h : exec i s = .next t) : SameControls s t := by
  rw [exec_memoryCommand hm (fault_none_of_exec h)] at h
  obtain ⟨u, hu, -, hc⟩ := (memoryCommand_ends hm s).complete h
  exact hu.sameControls.trans hc

theorem exec_memoryCommand_keeps {i : Instr} {act : State → Res Response} (hm : memoryCommand i = some act)
    {s t : State} (h : exec i s = .next t) {x : Nat} (hx : 0xFEA0 ≤ x) (hw : ¬ WriteReaches i x) :
    Memory.read t.mem x = Memory.read s.mem x := by
  rw [exec_memoryCommand hm (fault_none_of_exec h)] at h
  obtain ⟨u, hu, hmem, -⟩ := (memoryCommand_keeps hm hx hw s).complete h
  rw [hmem, hu]

/-! ## Which instruction can change IME, BTN and DPAD -/

/-- CHECKINT never sets IME, and keeps the masks, whatever its Calls issue (R61 e). -/
theorem exec_checkint_controls {s t : State} (h : exec .checkint s = .next t) :
    (t.ime = true → s.ime = true) ∧ t.btn = s.btn ∧ t.dpad = s.dpad := by
  rw [exec_checkint (fault_none_of_exec h)] at h
  obtain ⟨u, hu, -, hime, hbtn, hdpad⟩ := (checkLines_ends s.ime linesInPriority s).thenDone.complete h
  exact ⟨fun ht => hu.ime (hime ▸ ht), hbtn.trans hu.btn, hdpad.trans hu.dpad⟩

/-- What an instruction can do to IME, BTN and DPAD (10_state.md R13, R14). -/
theorem exec_controls {i : Instr} {s t : State} (h : exec i s = .next t) :
    SameControls s t ∨
    (i = .checkint ∧ (t.ime = true → s.ime = true) ∧ t.btn = s.btn ∧ t.dpad = s.dpad) ∨
    (∃ b, i = .setime b ∧ t.ime = b ∧ t.btn = s.btn ∧ t.dpad = s.dpad) ∨
    (∃ m, (i = .pressb m ∨ i = .unpressb m) ∧ t.ime = s.ime ∧ t.dpad = s.dpad) ∨
    (∃ m, (i = .pressd m ∨ i = .unpressd m) ∧ t.ime = s.ime ∧ t.btn = s.btn) := by
  have hf := fault_none_of_exec h
  cases i with
  | read a => exact .inl (exec_memoryCommand_sameControls rfl h)
  | read16 a => exact .inl (exec_memoryCommand_sameControls rfl h)
  | readrange a e => exact .inl (exec_memoryCommand_sameControls rfl h)
  | write a v => exact .inl (exec_memoryCommand_sameControls rfl h)
  | write2 a hi lo => exact .inl (exec_memoryCommand_sameControls rfl h)
  | write16 a v => exact .inl (exec_memoryCommand_sameControls rfl h)
  | checkint => exact .inr (.inl ⟨rfl, exec_checkint_controls h⟩)
  | setint l => rw [exec_setint hf] at h; cases h; exact .inl ⟨rfl, rfl, rfl⟩
  | pressb m =>
    rw [exec_pressb hf] at h; cases h
    exact .inr (.inr (.inr (.inl ⟨m, .inl rfl, rfl, rfl⟩)))
  | unpressb m =>
    rw [exec_unpressb hf] at h; cases h
    exact .inr (.inr (.inr (.inl ⟨m, .inr rfl, rfl, rfl⟩)))
  | pressd m =>
    rw [exec_pressd hf] at h; cases h
    exact .inr (.inr (.inr (.inr ⟨m, .inl rfl, rfl, rfl⟩)))
  | unpressd m =>
    rw [exec_unpressd hf] at h; cases h
    exact .inr (.inr (.inr (.inr ⟨m, .inr rfl, rfl, rfl⟩)))
  | setime b => rw [exec_setime hf] at h; cases h; exact .inr (.inr (.inl ⟨b, rfl, rfl, rfl, rfl⟩))
  | updatejoyp sel => rw [exec_updatejoyp hf] at h; cases h; exact .inl ⟨rfl, rfl, rfl⟩
  | dma v => rw [exec_dma hf] at h; cases h; exact .inl ⟨rfl, rfl, rfl⟩
  | rawstore a b => rw [exec_rawstore hf] at h; split at h <;> cases h; exact .inl ⟨rfl, rfl, rfl⟩
  | bootstrap table => rw [exec_bootstrap hf] at h; split at h <;> cases h; exact .inl ⟨rfl, rfl, rfl⟩

/-- Settles O40: of the instructions that do not keep IME, SETIME stores its operand, and CHECKINT, which never sets
IME, can only have cleared it. -/
theorem imeHasTwoWriters : Obligations.ImeHasTwoWriters := by
  intro i s t h
  rcases exec_controls h with ⟨hime, -⟩ | ⟨hi, hime, -⟩ | ⟨b, hi, hime, -⟩ | ⟨m, -, hime, -⟩ | ⟨m, -, hime, -⟩
  · exact .inl hime
  · rcases ht : t.ime with _ | _
    · exact .inr (.inl ⟨hi, rfl⟩)
    · exact .inl (hime ht).symm
  · exact .inr (.inr ⟨b, hi, hime⟩)
  · exact .inl hime
  · exact .inl hime

/-- Settles O33: every instruction but the two of a group keeps the group's mask. -/
theorem onlyJoypadCommandsChangeTheMasks : Obligations.OnlyJoypadCommandsChangeTheMasks := by
  intro i s t h
  rcases exec_controls h with ⟨-, hbtn, hdpad⟩ | ⟨-, -, hbtn, hdpad⟩ | ⟨b, -, -, hbtn, hdpad⟩ |
    ⟨m, hi, -, hdpad⟩ | ⟨m, hi, -, hbtn⟩
  · exact ⟨fun hne => absurd hbtn hne, fun hne => absurd hdpad hne⟩
  · exact ⟨fun hne => absurd hbtn hne, fun hne => absurd hdpad hne⟩
  · exact ⟨fun hne => absurd hbtn hne, fun hne => absurd hdpad hne⟩
  · exact ⟨fun _ => ⟨m, hi⟩, fun hne => absurd hdpad hne⟩
  · exact ⟨fun hne => absurd hbtn hne, fun _ => ⟨m, hi⟩⟩

/-! ## Which instruction can change a cell above OAM -/

/-- What may write the cell `x` above OAM, other than IF, which requests and dispatches also write: a write that
reaches it, UPDATEJOYP at the joypad register, RAWSTORE at it, BOOTSTRAP of a table that names it, or a CHECKINT
that makes Calls, by a write they are to issue. -/
def MayWriteCell (i : Instr) (s : State) (x : Nat) : Prop :=
  WriteReaches i x ∨ (x = 0xFF00 ∧ ∃ sel, i = .updatejoyp sel) ∨ (∃ a b, i = .rawstore a b ∧ a.toNat = x) ∨
  (∃ table, i = .bootstrap table ∧ bootTableOk table = true ∧ ∃ e ∈ table, e.1.toNat = x) ∨
  (i = .checkint ∧ s.ime = true ∧ CallsIssue s (WriteReaches · x))

/-- With IME false at entry CHECKINT only wakes the CPU: it writes no cell (R59). -/
theorem checkLines_imeFalse_mem (ls : List Line) (s : State) :
    Ends (checkLines false ls s) fun t => t.mem = s.mem := by
  induction ls generalizing s with
  | nil => exact .ok rfl
  | cons l ls ih =>
    have one : Ends (checkLine false l s) fun t => t.mem = s.mem := by
      rw [checkLine_eq]
      split <;> exact .ok rfl
    exact one.andThen (fun _ t h => (ih t).imp fun _ h' => h'.trans h) fun _ h => h

/-- CHECKINT writes a cell above OAM other than IF only by a write that one of its Calls, five at most, issues. -/
theorem exec_checkint_keeps {s t : State} (h : exec .checkint s = .next t) {x : Nat} (hx : 0xFEA0 ≤ x)
    (hif : x ≠ ifAddr) (hw : s.ime = true → ¬ CallsIssue s (WriteReaches · x)) :
    Memory.read t.mem x = Memory.read s.mem x := by
  rw [exec_checkint (fault_none_of_exec h)] at h
  have body : Ends (checkLines s.ime linesInPriority s) fun u => Memory.read u.mem x = Memory.read s.mem x := by
    rcases hime : s.ime with _ | _
    · exact (checkLines_imeFalse_mem linesInPriority s).imp fun u hu => by rw [hu]
    · exact checkLines_keeps true hx hif fun ws hws w hmem i hd hr => hw hime ⟨ws, hws, w, hmem, i, hd, hr⟩
  obtain ⟨u, hu, hmem, -⟩ := body.thenDone.complete h
  rw [hmem, hu]

/-- A request writes no cell but IF. -/
theorem read_ifStore_other {x : Nat} (hif : x ≠ ifAddr) (b : Byte) (s : State) :
    Memory.read (rawStore ifAddr b s).mem x = Memory.read s.mem x := Memory.read_write_other _ _ hif

/-- Nothing else writes a cell above OAM other than IF. -/
theorem exec_keeps_cell {i : Instr} {s t : State} (h : exec i s = .next t) {x : Nat} (hx : 0xFEA0 ≤ x)
    (hif : x ≠ ifAddr) (hw : ¬ MayWriteCell i s x) : Memory.read t.mem x = Memory.read s.mem x := by
  have hf := fault_none_of_exec h
  simp only [MayWriteCell, not_or] at hw
  obtain ⟨hwrite, hjoyp, hraw, hboot, hcheck⟩ := hw
  cases i with
  | read a => exact exec_memoryCommand_keeps rfl h hx hwrite
  | read16 a => exact exec_memoryCommand_keeps rfl h hx hwrite
  | readrange a e => exact exec_memoryCommand_keeps rfl h hx hwrite
  | write a v => exact exec_memoryCommand_keeps rfl h hx hwrite
  | write2 a hi lo => exact exec_memoryCommand_keeps rfl h hx hwrite
  | write16 a v => exact exec_memoryCommand_keeps rfl h hx hwrite
  | checkint => exact exec_checkint_keeps h hx hif fun hime hc => hcheck ⟨rfl, hime, hc⟩
  | setint l => rw [exec_setint hf] at h; cases h; exact read_ifStore_other hif _ s
  | pressb m => rw [exec_pressb hf] at h; cases h; exact read_ifStore_other hif _ (s.setBtn _)
  | unpressb m => rw [exec_unpressb hf] at h; cases h; rfl
  | pressd m => rw [exec_pressd hf] at h; cases h; exact read_ifStore_other hif _ (s.setDpad _)
  | unpressd m => rw [exec_unpressd hf] at h; cases h; rfl
  | setime b => rw [exec_setime hf] at h; cases h; rfl
  | updatejoyp sel =>
    rw [exec_updatejoyp hf] at h; cases h
    exact Memory.read_write_other _ _ fun e => hjoyp ⟨e, sel, rfl⟩
  | dma v => rw [exec_dma hf] at h; cases h; exact read_dmaMemory_other (by omega) _ (.inr hx)
  | rawstore a b =>
    rw [exec_rawstore hf] at h; split at h <;> cases h
    exact Memory.read_write_other _ _ fun e => hraw ⟨a, b, rfl, e.symm⟩
  | bootstrap table =>
    rw [exec_bootstrap hf] at h; split at h <;> cases h
    next hok => exact read_bootMemory_other _ fun e he hex => hboot ⟨table, rfl, hok, e, he, hex⟩

/-- Settles O39: 0xFFFF is a cell above OAM, and neither IF nor the joypad register. -/
theorem theBlockNeverWritesIeByItself : Obligations.TheBlockNeverWritesIeByItself := by
  intro i s t h hne
  have atIe : ∀ {a : U16}, a.toNat = 0xFFFF → a = 0xFFFF#16 := fun ha => BitVec.eq_of_toNat_eq ha
  have hw : MayWriteCell i s 0xFFFF := by
    by_contra hn
    exact hne (exec_keeps_cell h (by decide) (by decide) hn)
  rcases hw with hwrite | ⟨hjoyp, -⟩ | ⟨a, b, rfl, ha⟩ | ⟨table, rfl, -, e, he, ha⟩ | hcheck
  · exact .inl hwrite
  · exact absurd hjoyp (by decide)
  · exact .inr (.inl ⟨b, by rw [atIe ha]⟩)
  · exact .inr (.inr (.inl ⟨table, rfl, List.mem_map.mpr ⟨e, he, atIe ha⟩⟩))
  · exact .inr (.inr (.inr hcheck))

end Sys2Proof.Machine

/-! # The memory (20_memory.md): what every step keeps (O55, O56), reading back a write (O23, O24), RAWSTORE (O25, O26)
and accumulated requests (O36) -/

namespace Sys2Proof.Machine

/-! ## What a command's body keeps -/

/-- The trace shows that a command was refused, at the port or inside a Call. -/
def ShowsRefusal (s : State) : Prop :=
  .response .refusedIllegalCommand ∈ s.trace ∨ .reply .refusedIllegalCommand ∈ s.trace

/-- What the body of a command, from its word to just before its response, keeps: FAULT, the canonical form, every
untouchable cell, and the mark for each refusal it shows. -/
structure InCommand (s t : State) : Prop where
  fault : t.fault = s.fault
  refused : s.refused = true → t.refused = true
  marked : ShowsRefusal t → ShowsRefusal s ∨ t.refused = true
  wf : Memory.wf s.mem → Memory.wf t.mem
  keeps : ∀ a, Untouchable a → Memory.read t.mem a = Memory.read s.mem a

theorem InCommand.trans {s t u : State} (h1 : InCommand s t) (h2 : InCommand t u) : InCommand s u where
  fault := h2.fault.trans h1.fault
  refused := h2.refused ∘ h1.refused
  marked h := (h2.marked h).elim (fun h => (h1.marked h).imp_right h2.refused) .inr
  wf := h2.wf ∘ h1.wf
  keeps a ha := (h2.keeps a ha).trans (h1.keeps a ha)

/-- An update of any other field keeps all of this. -/
theorem inCommand_of_eq {s t : State} (hmem : t.mem = s.mem) (hfault : t.fault = s.fault)
    (hrefused : t.refused = s.refused) (htrace : t.trace = s.trace) : InCommand s t where
  fault := hfault
  refused h := hrefused.trans h
  marked h := .inl (by simpa only [ShowsRefusal, htrace] using h)
  wf h := hmem ▸ h
  keeps a _ := by rw [hmem]

theorem InCommand.refl (s : State) : InCommand s s := inCommand_of_eq rfl rfl rfl rfl

theorem inCommand_setIme (s : State) (b : Bool) : InCommand s (s.setIme b) := inCommand_of_eq rfl rfl rfl rfl

theorem inCommand_setBtn (s : State) (g : Nibble) : InCommand s (s.setBtn g) := inCommand_of_eq rfl rfl rfl rfl

theorem inCommand_setDpad (s : State) (g : Nibble) : InCommand s (s.setDpad g) := inCommand_of_eq rfl rfl rfl rfl

theorem inCommand_setPort (s : State) (ws : List Command) : InCommand s (s.setPort ws) :=
  inCommand_of_eq rfl rfl rfl rfl

theorem MemOnly.inCommand {s t : State} (h : MemOnly s t) : InCommand s t := by
  obtain ⟨-, -, -, hfault, hrefused, htrace, -, -⟩ := h.fields
  exact ⟨hfault, fun hr => hrefused.trans hr, fun hs => .inl (by simpa only [ShowsRefusal, htrace] using hs), h.wf,
    h.keeps⟩

/-- CHECKINT's lines add events and replies only, so a response in the trace was there before. -/
theorem InCheck.inCommand {s t : State} (h : InCheck s t) : InCommand s t where
  fault := h.fault
  refused := h.refused
  marked
    | .inl hresp => by
      obtain ⟨os, htrace, hos⟩ := h.trace
      rw [htrace, List.mem_append] at hresp
      refine .inl (.inl (hresp.resolve_right fun hmem => ?_))
      exact absurd (List.all_eq_true.mp hos _ hmem) (by decide)
    | .inr hreply => (h.marked hreply).imp_left .inr
  wf := h.wf
  keeps := h.keeps

/-- A refused word leaves its mark. -/
theorem inCommand_refuseCommand (s : State) : InCommand s (refuseCommand s) :=
  ⟨rfl, fun _ => rfl, fun _ => .inr rfl, id, fun _ _ => rfl⟩

theorem memOnly_bootMemory {table : List BootEntry} (h : bootTableOk table = true) (s : State) :
    MemOnly s (s.setMem (bootMemory table s.mem)) :=
  ⟨rfl, wf_bootMemory table, fun a ha => read_bootMemory_other s.mem fun e he => by
    have hentry := bootTableOk_mem h he
    have hlt := e.1.isLt
    rcases ha with ha | ha | ha <;> omega⟩

theorem rawStoreOk_iff {a : U16} : rawStoreOk a = true ↔ 0x8000 ≤ a.toNat := decide_eq_true_iff

/-! ## How a step ends -/

/-- The state `t` after a step whose body left `u`: that state (no response), with a response other than a refusal, or
with the fault at the first address outside the space. -/
def ClosesCommand (u t : State) : Prop :=
  t = u ∨ (∃ r, r ≠ .refusedIllegalCommand ∧ t = u.push (.response r)) ∨ t = takeFault 0x10000 u

theorem ClosesCommand.mem_eq {u t : State} (h : ClosesCommand u t) : t.mem = u.mem := by
  rcases h with rfl | ⟨r, -, rfl⟩ | rfl <;> rfl

/-- The next state `t` is a body that keeps what `InCommand` says, closed. -/
def RunsCommand (s t : State) : Prop := ∃ u, InCommand s u ∧ ClosesCommand u t

theorem RunsCommand.after {s t u : State} (h : InCommand s t) (hrun : RunsCommand t u) : RunsCommand s u := by
  obtain ⟨v, hbody, hclose⟩ := hrun
  exact ⟨v, h.trans hbody, hclose⟩

theorem InCommand.silent {s t : State} (h : InCommand s t) : RunsCommand s t := ⟨t, h, .inl rfl⟩

theorem InCommand.done {s t : State} (h : InCommand s t) : RunsCommand s (t.push (.response .done)) :=
  ⟨t, h, .inr (.inl ⟨.done, by decide, rfl⟩)⟩

theorem runsCommand_of_complete {r : Res Response} {s t : State} (hr : Ends r (InCommand s))
    (hanswer : ∀ a u, r = .ok a u → a ≠ .refusedIllegalCommand) (h : complete r = .next t) : RunsCommand s t := by
  rcases hr with ⟨a, u, rfl, hu⟩ | ⟨u, rfl, hu⟩ <;> cases h
  · exact ⟨u, hu, .inr (.inl ⟨a, hanswer a u rfl, rfl⟩)⟩
  · exact ⟨u, hu, .inr (.inr rfl)⟩

theorem exec_memoryCommand_runsCommand {i : Instr} {act : State → Res Response} (hm : memoryCommand i = some act)
    {s t : State} (h : exec i s = .next t) : RunsCommand s t := by
  rw [exec_memoryCommand hm (fault_none_of_exec h)] at h
  exact runsCommand_of_complete ((memoryCommand_ends hm s).imp fun _ hu => hu.inCommand)
    (fun _ _ e => (memoryCommand_answers hm e).1) h

theorem thenDone_answers {r : Res Unit} {a : Response} {t : State} (h : thenDone r = .ok a t) : a = .done := by
  cases r with
  | ok u s => cases h; rfl
  | raised addr s => cases h

theorem exec_checkint_runsCommand {s t : State} (h : exec .checkint s = .next t) : RunsCommand s t := by
  rw [exec_checkint (fault_none_of_exec h)] at h
  refine runsCommand_of_complete
    ((checkLines_ends s.ime linesInPriority s).thenDone.imp fun _ hu => hu.inCommand) (fun a u e => ?_) h
  rw [thenDone_answers e]
  decide

/-- Every instruction but RAWSTORE at the DMA cell, which no command word reaches, keeps what `InCommand` says until it
closes. -/
theorem exec_runsCommand {i : Instr} (hi : ∀ b, i ≠ .rawstore 0xFF46#16 b) {s t : State} (h : exec i s = .next t) :
    RunsCommand s t := by
  have hf := fault_none_of_exec h
  cases i with
  | read a => exact exec_memoryCommand_runsCommand rfl h
  | read16 a => exact exec_memoryCommand_runsCommand rfl h
  | readrange a e => exact exec_memoryCommand_runsCommand rfl h
  | write a v => exact exec_memoryCommand_runsCommand rfl h
  | write2 a hi lo => exact exec_memoryCommand_runsCommand rfl h
  | write16 a v => exact exec_memoryCommand_runsCommand rfl h
  | checkint => exact exec_checkint_runsCommand h
  | setint l => rw [exec_setint hf] at h; cases h; exact (memOnly_ifStore _ s).inCommand.done
  | pressb m =>
    rw [exec_pressb hf] at h; cases h
    exact ((inCommand_setBtn s _).trans (memOnly_ifStore _ _).inCommand).done
  | unpressb m => rw [exec_unpressb hf] at h; cases h; exact (inCommand_setBtn s _).done
  | pressd m =>
    rw [exec_pressd hf] at h; cases h
    exact ((inCommand_setDpad s _).trans (memOnly_ifStore _ _).inCommand).done
  | unpressd m => rw [exec_unpressd hf] at h; cases h; exact (inCommand_setDpad s _).done
  | setime b => rw [exec_setime hf] at h; cases h; exact (inCommand_setIme s b).done
  | updatejoyp sel => rw [exec_updatejoyp hf] at h; cases h; exact (memOnly_updateJoyp sel s).inCommand.silent
  | dma v => rw [exec_dma hf] at h; cases h; exact (memOnly_dma v s).inCommand.silent
  | rawstore a b =>
    have hdma : a.toNat ≠ 0xFF46 := fun e => hi b (congrArg (Instr.rawstore · b) (BitVec.eq_of_toNat_eq e))
    rw [exec_rawstore hf] at h; split at h <;> cases h
    next hok =>
      exact (memOnly_rawStore (rawStoreOk_iff.mp hok) hdma (Nat.le_of_lt_succ a.isLt) b s).inCommand.silent
  | bootstrap table =>
    rw [exec_bootstrap hf] at h; split at h <;> cases h
    next hok => exact (memOnly_bootMemory hok s).inCommand.silent

/-- A word decodes to a command only, never to an internal operation (30_encoding.md R48). -/
theorem encode_ne_none_of_decode {w : Command} {i : Instr} (h : decode w = .ok i) : encode i ≠ none := by
  have row : ∀ {m p : Command} {j : Instr}, encode j ≠ none → tableRow w m p j = .ok i → encode i ≠ none :=
    fun hj hrow => (tableRow_ok hrow).2 ▸ hj
  unfold decode at h
  split at h
  case h_8 =>
    split at h
    · exact row (by simp [encode]) h
    · split at h <;> cases h
  case h_14 => cases h
  all_goals exact row (by simp [encode]) h

/-- Every step, an idle one and a refusal among them, keeps what `InCommand` says until it closes. -/
theorem step_runsCommand {s t : State} (h : step s = .next t) : RunsCommand s t := by
  obtain ⟨-, ⟨-, rfl⟩ | ⟨w, rest, e, -, -, rfl⟩ | ⟨w, rest, i, -, hd, hexec⟩⟩ := step_cases h
  · exact (InCommand.refl t).silent
  · exact ((inCommand_setPort s rest).trans (inCommand_refuseCommand _)).silent
  · have hi : ∀ b, i ≠ .rawstore 0xFF46#16 b := by
      rintro b rfl
      exact encode_ne_none_of_decode hd rfl
    exact .after (inCommand_setPort s rest) (exec_runsCommand hi hexec)

/-! ## The never-written cells and the invariant -/

theorem NeverWritten.untouchable {a : Nat} (h : NeverWritten a) : Untouchable a := h.imp_right .inl

/-- BOOT_TABLE names no never-written cell (70_reset_and_hazards.md R85). -/
theorem read_reset_neverWritten {a : Nat} (ha : NeverWritten a) :
    Memory.read State.reset.mem a = Config.initByte a := by
  have hrange : a ≤ 0xFF00 ∨ a = 0xFF46 := by rcases ha with ha | ha <;> omega
  refine read_reset_other (by omega) fun e he => ?_
  have hentry := bootTableOk_mem bootTable_ok he
  omega

/-- Settles O56: BOOT_TABLE names none of these cells, they are untouchable for every body, and the close of a command
writes no cell. -/
theorem noStepWritesRomOrTheDmaCell : Obligations.NoStepWritesRomOrTheDmaCell := by
  refine ⟨fun a ha => read_reset_neverWritten ha, fun s t h a ha => ?_⟩
  obtain ⟨u, hbody, hclose⟩ := step_runsCommand h
  rw [hclose.mem_eq, hbody.keeps a ha.untouchable]

/-- A body keeps the invariant of a block that accepts commands: FAULT stays none. -/
theorem InCommand.inv {s u : State} (h : InCommand s u) (hf : s.fault = none) (hs : Inv s) : Inv u where
  canonical := h.wf hs.canonical
  image a ha := (h.keeps a ha.untouchable).trans (hs.image a ha)
  faultAddr f hu := by simp [h.fault, hf] at hu
  faultAnswered f hu := by simp [h.fault, hf] at hu
  refusalMarked hu := (h.marked hu).elim (fun hshow => h.refused (hs.refusalMarked hshow)) id

/-- The response of a command that was not refused. -/
theorem inv_push_response {u : State} {r : Response} (hr : r ≠ .refusedIllegalCommand) (hu : Inv u) :
    Inv (u.push (.response r)) where
  canonical := hu.canonical
  image := hu.image
  faultAddr := hu.faultAddr
  faultAnswered f hf := List.mem_append_left _ (hu.faultAnswered f hf)
  refusalMarked h := hu.refusalMarked (by simpa [hr.symm] using h)

/-- Taking the fault records its address and answers it (60_exceptions.md R70). -/
theorem inv_takeFault {addr : Nat} (haddr : 0x10000 ≤ addr) {u : State} (hu : Inv u) : Inv (takeFault addr u) where
  canonical := hu.canonical
  image := hu.image
  faultAddr f hf := by cases hf; exact haddr
  faultAnswered f hf := by cases hf; simp [takeFault]
  refusalMarked h := hu.refusalMarked (by simpa [takeFault] using h)

theorem ClosesCommand.inv {u t : State} (h : ClosesCommand u t) (hu : Inv u) : Inv t := by
  rcases h with rfl | ⟨r, hr, rfl⟩ | rfl
  · exact hu
  · exact inv_push_response hr hu
  · exact inv_takeFault (Nat.le_refl _) hu

/-- Settles O55: the body of the step keeps the invariant, and so does its close. -/
theorem everyStepKeepsTheInvariant : Obligations.EveryStepKeepsTheInvariant := by
  intro s t hs h
  obtain ⟨u, hbody, hclose⟩ := step_runsCommand h
  exact hclose.inv (hbody.inv (step_cases h).1 hs)

/-! ## Plain addresses: the write stores, and the read answers what was stored (R31, R32) -/

/-- A cell the dispatcher stores into with no handler (step 4 of R28). -/
def PlainAddr (a : Nat) : Prop := 0x8000 ≤ a ∧ a ≠ 0xFF00 ∧ a ≠ 0xFF46 ∧ a ≤ 0xFFFF

/-- An in-range operand that names none of the two handlers. -/
theorem plainAddr_u16 {a : U16} (hrom : 0x8000 ≤ a.toNat) (hjoyp : a ≠ 0xFF00#16) (hdma : a ≠ 0xFF46#16) :
    PlainAddr a.toNat :=
  ⟨hrom, fun e => hjoyp (BitVec.eq_of_toNat_eq e), fun e => hdma (BitVec.eq_of_toNat_eq e), Nat.le_of_lt_succ a.isLt⟩

theorem memWrite_of_plain {a : Nat} (ha : PlainAddr a) (value : Nat) (s : State) :
    memWrite a value s = .ok () (rawStore a (BitVec.ofNat 8 value) s) := by
  obtain ⟨hrom, hjoyp, hdma, htop⟩ := ha
  exact memWrite_plain value s hrom hjoyp hdma htop

theorem exec_write_plain {a : U16} (ha : PlainAddr a.toNat) (v : U16) {s : State} (hf : s.fault = none) :
    exec (.write a v) s = .next ((rawStore a.toNat (lo8 v) s).push (.response .done)) := by
  rw [exec_write hf, writeCommand, memWrite_of_plain ha]
  rfl

theorem memWrite16_plain {a : Nat} (hlo : PlainAddr a) (hhi : PlainAddr (a + 1)) (lo hi : Byte) (s : State) :
    memWrite16 a lo hi s = .ok () (rawStore (a + 1) hi (rawStore a lo s)) := by
  simp only [memWrite16, memWrite_of_plain hlo, memWrite_of_plain hhi, andThen_ok, BitVec.ofNat_toNat,
    BitVec.setWidth_eq]

theorem exec_write16_plain {a : U16} (hlo : PlainAddr a.toNat) (hhi : PlainAddr (a.toNat + 1)) (v : U16) {s : State}
    (hf : s.fault = none) : exec (.write16 a v) s =
      .next ((rawStore (a.toNat + 1) (hi8 v) (rawStore a.toNat (lo8 v) s)).push (.response .done)) := by
  rw [exec_write16 hf, write16Command, memWrite16_plain hlo hhi]
  rfl

theorem exec_read_next {s : State} (hf : s.fault = none) (a : U16) :
    exec (.read a) s = .next (s.push (.response (.data8 (Memory.read s.mem a.toNat)))) := by
  rw [exec_read hf, readCommand_eq, complete_ok]

theorem exec_read16_next {s : State} (hf : s.fault = none) {a : U16} (ha : a.toNat < 0xFFFF) :
    exec (.read16 a) s = .next (s.push (.response (.data16
      (joinBytes (Memory.read s.mem (a.toNat + 1)) (Memory.read s.mem a.toNat))))) := by
  rw [exec_read16 hf, read16Command_inRange ha, complete_ok]

@[simp] theorem rawStore_fault (a : Nat) (b : Byte) (s : State) : (rawStore a b s).fault = s.fault := rfl

@[simp] theorem rawStore_trace (a : Nat) (b : Byte) (s : State) : (rawStore a b s).trace = s.trace := rfl

/-- What one stored cell makes of the others, in a canonical memory. -/
theorem read_rawStore {s : State} (hm : Memory.wf s.mem) (a : Nat) (b : Byte) (x : Nat) :
    Memory.read (rawStore a b s).mem x = if x = a then b else Memory.read s.mem x := Memory.read_write hm a b x

theorem wf_rawStore {s : State} (hm : Memory.wf s.mem) {a : Nat} (ha : a ≤ 0xFFFF) (b : Byte) :
    Memory.wf (rawStore a b s).mem := Memory.wf_write hm (Nat.lt_succ_of_le ha)

/-- Settles O23: a plain address stores the low byte, and READ answers the cell. -/
theorem writeThenReadAnswersTheByte : Obligations.WriteThenReadAnswersTheByte := by
  intro a v s hf hm hrom hjoyp hdma
  refine ⟨_, _, exec_write_plain (plainAddr_u16 hrom hjoyp hdma) v hf, exec_read_next (by simpa using hf) a, ?_⟩
  simp [read_rawStore hm, lo8]

/-- Settles O24: both addresses are plain, so both bytes are stored, and READ16 joins the two cells. -/
theorem write16ThenRead16AnswersTheValue : Obligations.Write16ThenRead16AnswersTheValue := by
  intro a v s hf hm hrom htop hjoyp hdma hjoyp' hdma'
  have hlo := plainAddr_u16 hrom hjoyp hdma
  have hhi : PlainAddr (a.toNat + 1) :=
    ⟨by omega, fun e => hjoyp' (BitVec.eq_of_toNat_eq (Nat.succ.inj e)),
      fun e => hdma' (BitVec.eq_of_toNat_eq (Nat.succ.inj e)), htop⟩
  have hm' := wf_rawStore hm (Nat.le_of_lt htop) (lo8 v)
  refine ⟨_, _, exec_write16_plain hlo hhi v hf, exec_read16_next (by simpa using hf) htop, ?_⟩
  simp [read_rawStore hm', read_rawStore hm]

/-! ## RAWSTORE (R29) -/

theorem exec_rawstore_inside {a : U16} (ha : 0x8000 ≤ a.toNat) (b : Byte) {s : State} (hf : s.fault = none) :
    exec (.rawstore a b) s = .next (rawStore a.toNat b s) := by
  rw [exec_rawstore hf, if_pos (rawStoreOk_iff.mpr ha)]

/-- Settles O25: in its domain RAWSTORE is the store of one cell. -/
theorem rawStoreWritesOneCell : Obligations.RawStoreWritesOneCell := by
  intro a b s hf hm ha
  exact ⟨rawStore a.toNat b s, exec_rawstore_inside ha b hf, rfl, read_rawStore hm a.toNat b⟩

/-- Settles O26: the guard of RAWSTORE is R29's domain. -/
theorem rawStoreBelowTheGuardIsRefused : Obligations.RawStoreBelowTheGuardIsRefused := by
  intro a b s hf ha
  rw [exec_rawstore hf, if_neg fun hok => Nat.not_le.mpr ha (rawStoreOk_iff.mp hok)]

/-! ## Requests accumulate (10_state.md R38) -/

/-- Requests are bits ORed into IF, so their order does not show. -/
theorem withRequest_comm (l k : Line) (ifl : Byte) :
    withRequest l (withRequest k ifl) = withRequest k (withRequest l ifl) := by
  rw [withRequest, withRequest, BitVec.or_assoc, BitVec.or_comm (lineBit k), ← BitVec.or_assoc, ← withRequest,
    ← withRequest]

/-- Two SETINTs: IF holds both requests, and each was answered. -/
theorem exec_setint_setint {s : State} (hf : s.fault = none) (hm : Memory.wf s.mem) (l k : Line) :
    ∃ t, exec (.setint l) s = .next t ∧ exec (.setint k) t = .next
      (((rawStore ifAddr (withRequest k (withRequest l (Memory.read s.mem ifAddr))) s).push (.response .done)).push
        (.response .done)) := by
  have hif : Memory.read (rawStore ifAddr (withRequest l (Memory.read s.mem ifAddr)) s).mem ifAddr =
      withRequest l (Memory.read s.mem ifAddr) := Memory.read_write_same hm _ _
  refine ⟨_, exec_setint hf l, ?_⟩
  rw [exec_setint (by simpa using hf), State.push_mem, hif, rawStore_eq, rawStore_eq, rawStore_eq, State.push_mem,
    State.setMem_mem, Memory.write_write hm (by decide)]
  rfl

/-- Settles O36: both orders leave IF with the same two requests. -/
theorem requestsAccumulateInAnyOrder : Obligations.RequestsAccumulateInAnyOrder := by
  intro l k s hf hm
  obtain ⟨t, hl, hlk⟩ := exec_setint_setint hf hm l k
  obtain ⟨v, hk, hkl⟩ := exec_setint_setint hf hm k l
  exact ⟨t, _, v, _, hl, hlk, hk, hkl, by rw [withRequest_comm]⟩

end Sys2Proof.Machine

/-! # The encoding (30_encoding.md): the two round trips (O1, O2, O6), the internal operations (O5), the opcode map
(O3, O4), illegal words (O9), the assembler (O7) and the response of a command (O57) -/

namespace Sys2Proof.Machine

/-! ## Decoding and encoding are inverse -/

theorem wellFormed_of_encode {i : Instr} {w : Command} (h : encode i = some w) : i.wellFormed = true := by
  cases i with
  | updatejoyp | dma | rawstore | bootstrap => cases h
  | _ => rfl

/-- SETINT's X field is a zero bit and the three bits of the line. -/
theorem lineBits_append (x : BitVec 3) : (0#1 ++ x).extractLsb' 0 3 = x := by
  revert x; decide

/-- A row that answers its instruction was met, and then, by the row's format, the word is the assembled one. -/
theorem encode_of_tableRow {w m p v : Command} {i j : Instr} (h : tableRow w m p j = .ok i)
    (hformat : w &&& m = p ↔ w = v) (hj : encode j = some v) : encode i = some w := by
  obtain ⟨hmatch, rfl⟩ := tableRow_ok h
  rw [hj, ← hformat.mp hmatch]

/-- Each row's operands, as the decoder reads them, assemble to the word. -/
theorem encode_of_decode {w : Command} {i : Instr} (h : decode w = .ok i) : encode i = some w := by
  unfold decode at h
  split at h
  case h_1 => exact encode_of_tableRow h (formatA_iff w 0x1#4) rfl
  case h_2 => exact encode_of_tableRow h (formatA_iff w 0x2#4) rfl
  case h_3 => exact encode_of_tableRow h (formatAE_iff w 0x3#4) rfl
  case h_4 => exact encode_of_tableRow h (formatAD_iff w 0x4#4) rfl
  case h_5 => exact encode_of_tableRow h (formatAD_iff w 0x5#4) (by rw [encode, joinBytes_hi8_lo8])
  case h_6 => exact encode_of_tableRow h (formatAD_iff w 0x6#4) rfl
  case h_7 => exact encode_of_tableRow h (formatN_iff w 0x7#4) rfl
  case h_8 =>
    split at h
    · next l hl => exact encode_of_tableRow h (formatLine_iff w 0x8#4) (by rw [encode, bitsOfLine_of_lineOfBits hl])
    · split at h <;> cases h
  case h_9 => exact encode_of_tableRow h (formatX_iff w 0x9#4) rfl
  case h_10 => exact encode_of_tableRow h (formatX_iff w 0xA#4) rfl
  case h_11 => exact encode_of_tableRow h (formatX_iff w 0xB#4) rfl
  case h_12 => exact encode_of_tableRow h (formatX_iff w 0xC#4) rfl
  case h_13 => exact encode_of_tableRow h (formatBit_iff w 0xD#4) rfl
  case h_14 => cases h

/-- An assembled word has its row's OP, meets the row's mask and match, and its fields are the operands. -/
theorem decode_of_encode {i : Instr} {w : Command} (h : encode i = some w) : decode w = .ok i := by
  cases i <;> simp only [encode, Option.some.injEq, reduceCtorEq] at h <;> subst h <;>
    simp only [decode, opField_wordOf, xField_wordOf, aField_wordOf, eField_wordOf, dField_wordOf, hi8_joinBytes,
      lo8_joinBytes, lineBits_append, lineOfBits_bitsOfLine]
  case read a => exact tableRow_of_match _ ((formatA_iff _ 0x1#4).mpr (by rw [aField_wordOf]))
  case read16 a => exact tableRow_of_match _ ((formatA_iff _ 0x2#4).mpr (by rw [aField_wordOf]))
  case readrange a e => exact tableRow_of_match _ ((formatAE_iff _ 0x3#4).mpr (by rw [aField_wordOf, eField_wordOf]))
  case write a v => exact tableRow_of_match _ ((formatAD_iff _ 0x4#4).mpr (by rw [aField_wordOf, dField_wordOf]))
  case write2 a hi lo => exact tableRow_of_match _ ((formatAD_iff _ 0x5#4).mpr (by rw [aField_wordOf, dField_wordOf]))
  case write16 a v => exact tableRow_of_match _ ((formatAD_iff _ 0x6#4).mpr (by rw [aField_wordOf, dField_wordOf]))
  case checkint => exact tableRow_of_match _ ((formatN_iff _ 0x7#4).mpr rfl)
  case setint l => exact tableRow_of_match _ ((formatLine_iff _ 0x8#4).mpr (by rw [xField_wordOf, lineBits_append]))
  case pressb m => exact tableRow_of_match _ ((formatX_iff _ 0x9#4).mpr (by rw [xField_wordOf]))
  case unpressb m => exact tableRow_of_match _ ((formatX_iff _ 0xA#4).mpr (by rw [xField_wordOf]))
  case pressd m => exact tableRow_of_match _ ((formatX_iff _ 0xB#4).mpr (by rw [xField_wordOf]))
  case unpressd m => exact tableRow_of_match _ ((formatX_iff _ 0xC#4).mpr (by rw [xField_wordOf]))
  case setime b => cases b <;> exact tableRow_of_match _ ((formatBit_iff _ 0xD#4).mpr (by rw [xField_wordOf]; rfl))

/-- Settles O1: the decoder reads every assembled word back. -/
theorem encodedInstructionDecodesBack : Obligations.EncodedInstructionDecodesBack :=
  fun _ _ _ h => decode_of_encode h

/-- Settles O2: a decoded word is the assembled one, and an instruction with a word is well-formed. -/
theorem decodedWordIsTheEncoding : Obligations.DecodedWordIsTheEncoding :=
  fun _ _ h => ⟨wellFormed_of_encode (encode_of_decode h), encode_of_decode h⟩

/-- Settles O5: they have no word, and what a word decodes to has one. -/
theorem internalOperationsHaveNoWord : Obligations.InternalOperationsHaveNoWord := by
  refine ⟨fun _ => rfl, fun _ => rfl, fun _ _ => rfl, fun _ => rfl, fun w i h => ?_⟩
  have hw : ∀ {j : Instr}, encode j = none → i ≠ j := fun hj e => encode_ne_none_of_decode h (e ▸ hj)
  exact ⟨fun _ => hw rfl, fun _ => hw rfl, fun _ _ => hw rfl, fun _ => hw rfl⟩

/-- Settles O6: the six command words are the encodings, and the decoder computes the kind of each illegal one. -/
theorem workedWordsDecode : Obligations.WorkedWordsDecode :=
  ⟨decode_of_encode rfl, decode_of_encode rfl, decode_of_encode rfl, decode_of_encode rfl, decode_of_encode rfl,
    decode_of_encode rfl, rfl, rfl, rfl⟩

/-! ## The opcode map (R46) -/

/-- Every row's mask fixes all of OP. -/
theorem opcodeMap_opMasks : opcodeMap.map (fun r => opField r.1) = List.replicate 13 0xF#4 := rfl

/-- The rows stand in order of OP, 0x1 to 0xD. -/
theorem opcodeMap_ops : opcodeMap.map (fun r => opField r.2) =
    [0x1#4, 0x2#4, 0x3#4, 0x4#4, 0x5#4, 0x6#4, 0x7#4, 0x8#4, 0x9#4, 0xA#4, 0xB#4, 0xC#4, 0xD#4] := rfl

theorem opField_of_row {r : Command × Command} (hr : r ∈ opcodeMap) {w : Command} (h : w &&& r.1 = r.2) :
    opField w = opField r.2 := by
  have hmask : opField r.1 = 0xF#4 :=
    List.eq_of_mem_replicate (opcodeMap_opMasks ▸ List.mem_map.mpr ⟨r, hr, rfl⟩)
  have hop := ((and_mask_iff w r.1 r.2).mp h).1
  rwa [hmask, and_ones4] at hop

theorem row_eq_of_opField {r q : Command × Command} (hr : r ∈ opcodeMap) (hq : q ∈ opcodeMap)
    (h : opField r.2 = opField q.2) : r = q := by
  have hdistinct : (opcodeMap.map fun r => opField r.2).Nodup := by rw [opcodeMap_ops]; decide
  exact List.inj_on_of_nodup_map hdistinct hr hq h

/-- Settles O4: both rows fix the word's OP, which belongs to one row. -/
theorem opcodeRowsDoNotOverlap : Obligations.OpcodeRowsDoNotOverlap := fun _ _ hr _ hq h1 h2 =>
  row_eq_of_opField hr hq ((opField_of_row hr h1).symm.trans (opField_of_row hq h2))

theorem reserved_or_row (op : Nibble) : (op = 0x0#4 ∨ op = 0xE#4 ∨ op = 0xF#4) ∨
    ∃ r ∈ opcodeMap, opField r.2 = op := by
  rw [← List.mem_map (f := fun r : Command × Command => opField r.2), opcodeMap_ops]
  revert op; decide

/-- The decoder reads some instruction from the word. -/
def Decodes (w : Command) : Prop := ∃ i, decode w = .ok i

theorem not_decodes_of_reserved {w : Command} (h : opField w = 0x0#4 ∨ opField w = 0xE#4 ∨ opField w = 0xF#4) :
    ¬ Decodes w := by
  rintro ⟨i, hi⟩
  rcases h with h | h | h <;> rw [decode, h] at hi <;> cases hi

theorem tableRow_decodes_iff (w m p : Command) (j : Instr) : (∃ i, tableRow w m p j = .ok i) ↔ w &&& m = p :=
  ⟨fun ⟨_, h⟩ => (tableRow_ok h).1, fun h => ⟨j, tableRow_of_match j h⟩⟩

/-- `X[2:0]`, from the word and from its X field. -/
theorem lineBits_xField (w : Command) : (xField w).extractLsb' 0 3 = w.extractLsb' 56 3 := by
  ext k hk
  simp [xField, show k < 4 by omega]

theorem lineOfBits_isSome_iff (x : BitVec 3) : (lineOfBits x).isSome = true ↔ x.toNat ≤ 4 := by
  revert x; decide

/-- SETINT's row asks for a line as well. -/
theorem decodes_setint_iff {w : Command} (hop : opField w = 0x8#4) :
    Decodes w ↔ w &&& 0xF8FFFFFFFFFFFFFF#64 = 0x8000000000000000#64 ∧ (w.extractLsb' 56 3).toNat ≤ 4 := by
  rw [← lineOfBits_isSome_iff, ← lineBits_xField]
  simp only [Decodes, decode, hop]
  rcases lineOfBits ((xField w).extractLsb' 0 3) with _ | l
  · simp only [Option.isSome_none, Bool.false_eq_true, and_false, iff_false, not_exists]
    intro i
    split <;> exact nofun
  · simp only [tableRow_decodes_iff, Option.isSome_some, and_true]

/-- A word with a row's OP decodes exactly when it meets the row's mask and match and, for SETINT, names a line. -/
theorem decodes_iff_of_row {r : Command × Command} (hr : r ∈ opcodeMap) {w : Command} (hop : opField w = opField r.2) :
    Decodes w ↔ w &&& r.1 = r.2 ∧ (r.2 = 0x8000000000000000#64 → (w.extractLsb' 56 3).toNat ≤ 4) := by
  have plain : ∀ {m p : Command} (j : Instr), decode w = tableRow w m p j → p ≠ 0x8000000000000000#64 →
      (Decodes w ↔ w &&& m = p ∧ (p = 0x8000000000000000#64 → (w.extractLsb' 56 3).toNat ≤ 4)) :=
    fun j hrow hp => by
      rw [Decodes, hrow, tableRow_decodes_iff]
      exact (and_iff_left fun h => absurd h hp).symm
  simp only [opcodeMap, List.mem_cons, List.not_mem_nil, or_false] at hr
  rcases hr with rfl | rfl | rfl | rfl | rfl | rfl | rfl | rfl | rfl | rfl | rfl | rfl | rfl
  on_goal 8 => simpa using decodes_setint_iff hop
  all_goals exact plain _ (by rw [decode, hop]; rfl) (by decide)

/-- Settles O3: a word that decodes has a row's OP, and one that meets a row has that row's OP. -/
theorem legalWordsAreTheOpcodeMap : Obligations.LegalWordsAreTheOpcodeMap := by
  intro w
  constructor
  · intro hd
    rcases reserved_or_row (opField w) with hres | ⟨r, hr, hop⟩
    · exact absurd hd (not_decodes_of_reserved hres)
    · exact ⟨r, hr, (decodes_iff_of_row hr hop.symm).mp hd⟩
  · rintro ⟨r, hr, hmatch, hline⟩
    exact (decodes_iff_of_row hr (opField_of_row hr hmatch)).mpr ⟨hmatch, hline⟩

/-! ## Illegal words (R47) -/

theorem not_decodes_of_illegalKind {w : Command} (h : IllegalKind w) : ¬ Decodes w := by
  rcases h with hres | ⟨r, hr, hop, hmatch⟩ | ⟨hop, hline⟩
  · exact not_decodes_of_reserved hres
  · exact fun hd => hmatch ((decodes_iff_of_row hr hop).mp hd).1
  · exact fun hd => Nat.not_le.mpr hline ((decodes_setint_iff hop).mp hd).2

/-- The decoder is total: a word that does not decode is an error. -/
theorem decode_error_of_not_decodes {w : Command} (h : ¬ Decodes w) : ∃ e, decode w = .error e := by
  rcases hd : decode w with e | i
  · exact ⟨e, rfl⟩
  · exact absurd ⟨i, hd⟩ h

theorem takeCommand_of_error {s : State} {w : Command} {rest : List Command} {e : Illegal} (hp : s.port = w :: rest)
    (hd : decode w = .error e) : takeCommand s = .illegal (s.setPort rest) := by
  simp only [takeCommand, hp, hd]

/-- Settles O9: no word of the three kinds decodes, so the port offers it as illegal, and it is refused. -/
theorem stepRefusesAnIllegalWord : Obligations.StepRefusesAnIllegalWord := by
  intro s w rest hf hp hk
  obtain ⟨e, hd⟩ := decode_error_of_not_decodes (not_decodes_of_illegalKind hk)
  rw [step, accept_of_none hf, takeCommand_of_error hp hd]
  rfl

/-! ## The assembler (R50, R51) -/

/-- What a line assembles to, if anything, has a command word. -/
def OnlyCommands (x : Except AsmError Instr) : Prop := ∀ i, x = .ok i → ∃ w, encode i = some w

theorem onlyCommands_error (e : AsmError) : OnlyCommands (.error e) := nofun

theorem onlyCommands_ok {i : Instr} {w : Command} (h : encode i = some w) : OnlyCommands (.ok i) := by
  rintro _ ⟨⟩
  exact ⟨w, h⟩

theorem onlyCommands_withOperand {α : Type} (x : Except AsmError α) {f : α → Except AsmError Instr}
    (h : ∀ a, OnlyCommands (f a)) : OnlyCommands (withOperand x f) := by
  rcases x with e | a
  · exact onlyCommands_error e
  · exact h a

/-- What a table of names gives for a name has what all its entries have. -/
theorem of_namedIn {α : Type} {P : α → Prop} {table : List (String × α)} (h : ∀ e ∈ table, P e.2) {cs : List Char}
    {v : α} (hv : namedIn table cs = some v) : P v := by
  induction table with
  | nil => cases hv
  | cons e rest ih =>
    obtain ⟨hhead, hrest⟩ := List.forall_mem_cons.mp h
    rw [namedIn] at hv
    split at hv
    · cases hv; exact hhead
    · exact ih hrest hv

theorem onlyCommands_nullaryOps {m : List Char} {i : Instr} (h : namedIn nullaryOps m = some i) :
    OnlyCommands (.ok i) := by
  refine of_namedIn (P := fun i => OnlyCommands (.ok i)) ?_ h
  simp only [nullaryOps, List.forall_mem_cons]
  exact ⟨onlyCommands_ok rfl, onlyCommands_ok rfl, onlyCommands_ok rfl, nofun⟩

/-- A mnemonic that takes one operand to a command. -/
theorem onlyCommands_unary {α : Type} (x : Except AsmError α) {f : α → Instr} {g : α → Command}
    (h : ∀ a, encode (f a) = some (g a)) : OnlyCommands (withOperand x fun a => .ok (f a)) :=
  onlyCommands_withOperand x fun a => onlyCommands_ok (h a)

theorem onlyCommands_unaryOps {m : List Char} {f : List Char → Except AsmError Instr}
    (h : namedIn unaryOps m = some f) : ∀ a, OnlyCommands (f a) := by
  refine of_namedIn (P := fun f => ∀ a, OnlyCommands (f a)) ?_ h
  simp only [unaryOps, List.forall_mem_cons]
  refine ⟨?read, ?read16, ?setint, ?setime, ?pressb, ?unpressb, ?pressd, ?unpressd, ?press, ?release, ?dma, ?joyp,
    ?setie, ?setif, nofun⟩ <;> intro a
  case press | release =>
    refine onlyCommands_withOperand _ fun b => ?_
    split <;> exact onlyCommands_ok rfl
  all_goals exact onlyCommands_unary _ fun _ => rfl

theorem onlyCommands_binaryOps {m : List Char} {f : List Char → List Char → Except AsmError Instr}
    (h : namedIn binaryOps m = some f) : ∀ a b, OnlyCommands (f a b) := by
  refine of_namedIn (P := fun f => ∀ a b, OnlyCommands (f a b)) ?_ h
  simp only [binaryOps, List.forall_mem_cons]
  refine ⟨?_, ?_, ?_, nofun⟩ <;> intro a b <;>
    exact onlyCommands_withOperand _ fun _ => onlyCommands_unary _ fun _ => rfl

theorem onlyCommands_ternaryOps {m : List Char} {f : List Char → List Char → List Char → Except AsmError Instr}
    (h : namedIn ternaryOps m = some f) : ∀ a b c, OnlyCommands (f a b c) := by
  refine of_namedIn (P := fun f => ∀ a b c, OnlyCommands (f a b c)) ?_ h
  simp only [ternaryOps, List.forall_mem_cons]
  exact ⟨fun a b c => onlyCommands_withOperand _ fun _ => onlyCommands_withOperand _ fun _ =>
    onlyCommands_unary _ fun _ => rfl, nofun⟩

/-- Whatever the number of operands, the mnemonic's table gives a command or an error. -/
theorem onlyCommands_assembleOp (m : List Char) (operands : List (List Char)) :
    OnlyCommands (assembleOp m operands) := by
  unfold assembleOp
  split
  case h_5 => exact onlyCommands_error _
  all_goals split
  · exact onlyCommands_nullaryOps ‹_›
  · exact onlyCommands_error _
  · exact onlyCommands_unaryOps ‹_› _
  · exact onlyCommands_error _
  · exact onlyCommands_binaryOps ‹_› _ _
  · exact onlyCommands_error _
  · exact onlyCommands_ternaryOps ‹_› _ _ _
  · exact onlyCommands_error _

/-- Settles O7: the line's mnemonic and operands assemble to commands only, and these are well-formed. -/
theorem assembledLineHasALegalWord : Obligations.AssembledLineHasALegalWord := by
  intro cs i h
  simp only [assembleLine] at h
  split at h
  · cases h
  · split at h
    · next j hop =>
      cases h
      obtain ⟨w, hw⟩ := onlyCommands_assembleOp _ _ i hop
      exact ⟨wellFormed_of_encode hw, w, hw⟩
    · cases h

/-! ## One response for each command (R49) -/

/-- The trace grew by events and replies only. -/
def AddsEvents (s t : State) : Prop := ∃ os : List Output, t.trace = s.trace ++ os ∧ os.all Output.isEvent = true

theorem addsEvents_of_eq {s t : State} (h : t.trace = s.trace) : AddsEvents s t := ⟨[], by simpa using h, rfl⟩

theorem MemOnly.trace {s t : State} (h : MemOnly s t) : t.trace = s.trace := by
  obtain ⟨-, -, -, -, -, htrace, -, -⟩ := h.fields
  exact htrace

/-- The trace grew by events and replies, and then by one response that is no refusal. -/
def AnswersOnce (s t : State) : Prop := ∃ (os : List Output) (r : Response),
  t.trace = s.trace ++ os ++ [.response r] ∧ os.all Output.isEvent = true ∧ r ≠ .refusedIllegalCommand

theorem AddsEvents.answer {s u : State} (h : AddsEvents s u) {t : State} {r : Response}
    (ht : t.trace = u.trace ++ [.response r]) (hr : r ≠ .refusedIllegalCommand) : AnswersOnce s t := by
  obtain ⟨os, htrace, hos⟩ := h
  exact ⟨os, r, by rw [ht, htrace], hos, hr⟩

theorem answersOnce_done {s u : State} (h : u.trace = s.trace) : AnswersOnce s (u.push (.response .done)) :=
  (addsEvents_of_eq h).answer rfl (by decide)

/-- The end of a command adds its one response, or the one of the fault it raised. -/
theorem answersOnce_of_complete {r : Res Response} {s t : State} (hr : Ends r (AddsEvents s))
    (hanswer : ∀ a u, r = .ok a u → a ≠ .refusedIllegalCommand) (h : complete r = .next t) : AnswersOnce s t := by
  rcases hr with ⟨a, u, rfl, hu⟩ | ⟨u, rfl, hu⟩ <;> cases h
  · exact hu.answer rfl (hanswer a u rfl)
  · exact hu.answer rfl (by simp)

theorem exec_memoryCommand_answersOnce {i : Instr} {act : State → Res Response} (hm : memoryCommand i = some act)
    {s t : State} (h : exec i s = .next t) : AnswersOnce s t := by
  rw [exec_memoryCommand hm (fault_none_of_exec h)] at h
  exact answersOnce_of_complete ((memoryCommand_ends hm s).imp fun _ hu => addsEvents_of_eq hu.trace)
    (fun _ _ e => (memoryCommand_answers hm e).1) h

theorem exec_checkint_answersOnce {s t : State} (h : exec .checkint s = .next t) : AnswersOnce s t := by
  rw [exec_checkint (fault_none_of_exec h)] at h
  refine answersOnce_of_complete ((checkLines_ends s.ime linesInPriority s).thenDone.imp fun _ hu => hu.trace)
    (fun a u e => ?_) h
  rw [thenDone_answers e]
  decide

theorem exec_answersOnce {i : Instr} {s t : State} (h : exec i s = .next t) (hw : encode i ≠ none) :
    AnswersOnce s t := by
  have hf := fault_none_of_exec h
  cases i with
  | read a => exact exec_memoryCommand_answersOnce rfl h
  | read16 a => exact exec_memoryCommand_answersOnce rfl h
  | readrange a e => exact exec_memoryCommand_answersOnce rfl h
  | write a v => exact exec_memoryCommand_answersOnce rfl h
  | write2 a hi lo => exact exec_memoryCommand_answersOnce rfl h
  | write16 a v => exact exec_memoryCommand_answersOnce rfl h
  | checkint => exact exec_checkint_answersOnce h
  | setint l => rw [exec_setint hf] at h; cases h; exact answersOnce_done rfl
  | pressb m => rw [exec_pressb hf] at h; cases h; exact answersOnce_done rfl
  | unpressb m => rw [exec_unpressb hf] at h; cases h; exact answersOnce_done rfl
  | pressd m => rw [exec_pressd hf] at h; cases h; exact answersOnce_done rfl
  | unpressd m => rw [exec_unpressd hf] at h; cases h; exact answersOnce_done rfl
  | setime b => rw [exec_setime hf] at h; cases h; exact answersOnce_done rfl
  | updatejoyp | dma | rawstore | bootstrap => exact absurd rfl hw

/-- An internal operation stores cells only, and has no response (R48). -/
theorem exec_internal_trace {i : Instr} {s t : State} (h : exec i s = .next t) (hw : encode i = none) :
    t.trace = s.trace := by
  have hf := fault_none_of_exec h
  cases i with
  | updatejoyp sel => rw [exec_updatejoyp hf] at h; cases h; rfl
  | dma v => rw [exec_dma hf] at h; cases h; rfl
  | rawstore a b => rw [exec_rawstore hf] at h; split at h <;> cases h; rfl
  | bootstrap table => rw [exec_bootstrap hf] at h; split at h <;> cases h; rfl
  | _ => cases hw

/-- Settles O57: a command's body adds events and its end the response; an internal operation adds nothing. -/
theorem eachCommandHasOneResponseLast : Obligations.EachCommandHasOneResponseLast :=
  fun _ _ _ h => ⟨exec_answersOnce h, exec_internal_trace h⟩

end Sys2Proof.Machine

/-! # The AddressSpace commands (40_address_space.md): the reads (O17, O18, O19), the dispatched write (O20) and the
two-byte writes (O21, O22) -/

namespace Sys2Proof.Machine

/-! ## The reads (R52, R53, R54) -/

/-- Settles O17: the address is 16 bits, so the read is in range. -/
theorem readAnswersTheCell : Obligations.ReadAnswersTheCell := fun a _ hf => ⟨rfl, exec_read_next hf a⟩

/-- Settles O18: below 0xFFFF both cells are in range and their bytes are joined; at 0xFFFF the second one is the first
address outside the space. -/
theorem read16AnswersThePair : Obligations.Read16AnswersThePair := by
  intro a s hf
  refine ⟨rfl, fun ha => ⟨_, joinBytes_toNat _ _, exec_read16_next hf ha⟩, fun ha => ?_⟩
  rw [exec_read16 hf, read16Command_top ha]
  rfl

/-- Settles O19: the range test comes first, and then the bytes are those of the ascending addresses. -/
theorem readRangeAnswersTheBytes : Obligations.ReadRangeAnswersTheBytes := by
  intro a e s hf
  refine ⟨rfl, fun he => ⟨(List.range' a.toNat (e.toNat - a.toNat)).map (Memory.read s.mem), by simp, ?_, ?_⟩,
    fun he => ?_⟩
  · intro k hk
    rw [List.length_map, List.length_range'] at hk
    simp [hk]
  · rw [exec_readrange hf, readrangeCommand_eq, if_neg (Nat.not_lt.mpr he)]
    rfl
  · rw [exec_readrange hf, readrangeCommand_eq, if_pos he]
    rfl

/-! ## The cells after a dispatched write, step by step of R28 (R35) -/

theorem cellAfterWrite_rom (s : State) {a : Nat} (ha : a < 0x8000) (b : Byte) (x : Nat) :
    cellAfterWrite s a b x = Memory.read s.mem x := if_pos ha

theorem cellAfterWrite_joyp (s : State) (b : Byte) (x : Nat) : cellAfterWrite s 0xFF00 b x =
    if x = 0xFF00 then joypValue b s.btn s.dpad else Memory.read s.mem x := by
  simp [cellAfterWrite]

theorem cellAfterWrite_dma (s : State) (b : Byte) (x : Nat) : cellAfterWrite s 0xFF46 b x =
    if 0xFE00 ≤ x ∧ x < 0xFEA0 then Memory.read s.mem (b.toNat * 256 + (x - 0xFE00)) else Memory.read s.mem x := by
  simp [cellAfterWrite]

theorem cellAfterWrite_plain (s : State) {a : Nat} (ha : PlainAddr a) (b : Byte) (x : Nat) :
    cellAfterWrite s a b x = if x = a then b else Memory.read s.mem x := by
  obtain ⟨hrom, hjoyp, hdma, -⟩ := ha
  rw [cellAfterWrite, if_neg (Nat.not_lt.mpr hrom), if_neg hjoyp, if_neg hdma]

/-- A write that completes leaves in every cell what the table of R35 says. -/
theorem read_memWrite {s t : State} (hm : Memory.wf s.mem) {a value : Nat} (h : memWrite a value s = .ok () t)
    (x : Nat) : Memory.read t.mem x = cellAfterWrite s a (BitVec.ofNat 8 value) x := by
  by_cases htop : 0xFFFF < a
  · rw [memWrite_outOfRange _ _ htop] at h; cases h
  by_cases hrom : a < 0x8000
  · rw [memWrite_rom _ _ hrom] at h; cases h
    rw [cellAfterWrite_rom _ hrom]
  by_cases hjoyp : a = 0xFF00
  · subst hjoyp
    rw [memWrite_joyp] at h; cases h
    rw [cellAfterWrite_joyp]
    exact Memory.read_write hm _ _ x
  by_cases hdma : a = 0xFF46
  · subst hdma
    rw [memWrite_dma, dmaTransfer_eq] at h; cases h
    rw [cellAfterWrite_dma]
    exact read_dmaMemory (by omega) hm x
  · have ha : PlainAddr a := ⟨by omega, hjoyp, hdma, by omega⟩
    rw [memWrite_of_plain ha] at h; cases h
    rw [cellAfterWrite_plain _ ha, read_rawStore hm]

/-- A body that changes memory only, closed with its response. -/
theorem MemOnly.push_eq {s t : State} (h : MemOnly s t) (o : Output) :
    t.push o = { s with mem := t.mem, trace := s.trace ++ [o] } := by
  rw [h.same]; rfl

/-- Settles O20: WRITE is one dispatched write of the low byte of its value. -/
theorem writeHasTheDispatchedEffect : Obligations.WriteHasTheDispatchedEffect := by
  intro a v s hf hm
  obtain ⟨t, hbody, hwrite, hmem⟩ := writeCommand_ok a v s
  have hcells := read_memWrite hm hwrite
  refine ⟨rfl, t.push (.response .done), ?_, hmem.push_eq _, hcells⟩
  rw [exec_write hf, hbody, complete_ok]

/-! ## Two dispatched writes (R56, R57) -/

/-- WRITE2 of two bytes is WRITE16 of the value they make. -/
theorem exec_write2_eq_write16 {s : State} (hf : s.fault = none) (a : U16) (hi lo : Byte) :
    exec (.write2 a hi lo) s = exec (.write16 a (joinBytes hi lo)) s := by
  rw [exec_write2 hf, exec_write16 hf, write2Command, write16Command, lo8_joinBytes, hi8_joinBytes]

/-- The value of R56 and R57, from its two bytes. -/
theorem eq_joinBytes {v : U16} {hi lo : Byte} (h : v.toNat = hi.toNat * 256 + lo.toNat) : v = joinBytes hi lo :=
  BitVec.eq_of_toNat_eq (h.trans (joinBytes_toNat hi lo).symm)

/-- Below 0xFFFF both writes complete, the second from the state the first leaves. -/
theorem exec_write16_inRange {s : State} (hf : s.fault = none) (hm : Memory.wf s.mem) {a : U16} (ha : a.toNat < 0xFFFF)
    (hi lo : Byte) : ∃ m t, MemOnly s m ∧ MemOnly m t ∧
      (∀ x, Memory.read m.mem x = cellAfterWrite s a.toNat lo x) ∧
      (∀ x, Memory.read t.mem x = cellAfterWrite m (a.toNat + 1) hi x) ∧
      exec (.write16 a (joinBytes hi lo)) s = .next (t.push (.response .done)) := by
  rcases memWrite16_cases (Nat.le_of_lt ha) lo hi s with ⟨htop, -⟩ | ⟨-, m, t, hlo, hmlo, hhi, hmhi, hboth⟩
  · exact absurd htop (Nat.ne_of_lt ha)
  · refine ⟨m, t, hmlo, hmhi, fun x => ?_, fun x => ?_, ?_⟩
    · simpa using read_memWrite hm hlo x
    · simpa using read_memWrite (hmlo.wf hm) hhi x
    · rw [exec_write16 hf, write16Command, lo8_joinBytes, hi8_joinBytes, hboth, thenDone_ok, complete_ok]

/-- At 0xFFFF the low byte goes to IE and the high byte raises. -/
theorem exec_write16_top {s : State} (hf : s.fault = none) {a : U16} (ha : a.toNat = 0xFFFF) (hi lo : Byte) :
    exec (.write16 a (joinBytes hi lo)) s = .next (takeFault 0x10000 (rawStore 0xFFFF lo s)) := by
  rcases memWrite16_cases (Nat.le_of_eq ha) lo hi s with ⟨-, hraised⟩ | ⟨hlt, -⟩
  · rw [exec_write16 hf, write16Command, lo8_joinBytes, hi8_joinBytes, hraised, thenDone_raised, complete_raised]
  · exact absurd ha (Nat.ne_of_lt hlt)

/-- Settles O21: both commands are the same two dispatched writes, of which only the second can be out of range. -/
theorem twoByteWriteIsTwoDispatchedWrites : Obligations.TwoByteWriteIsTwoDispatchedWrites := by
  intro a hi lo v s hf hm hv
  obtain rfl := eq_joinBytes hv
  rw [exec_write2_eq_write16 hf]
  refine ⟨rfl, rfl, fun ha => ?_, fun ha => ?_⟩
  · obtain ⟨m, t, hmlo, hmhi, hlo, hhi, hexec⟩ := exec_write16_inRange hf hm ha hi lo
    exact ⟨m, t.push (.response .done), hlo, hmlo.same, hhi, (hmlo.trans hmhi).push_eq _, hexec, hexec⟩
  · have hexec := exec_write16_top hf ha hi lo
    exact ⟨takeFault 0x10000 (rawStore 0xFFFF lo s), read_rawStore hm 0xFFFF lo, rfl, hexec, hexec⟩

/-! ## The boundary addresses (R58) -/

/-- The cells after WRITE16 below 0xFFFF; the second write sees the joypad masks the first one kept. -/
theorem write16_cells {s : State} (hf : s.fault = none) (hm : Memory.wf s.mem) {hi lo : Byte} {v : U16}
    (hv : v.toNat = hi.toNat * 256 + lo.toNat) {a : Nat} (ha : a < 0xFFFF) :
    ∃ m t, exec (.write16 (BitVec.ofNat 16 a) v) s = .next t ∧ m.btn = s.btn ∧ m.dpad = s.dpad ∧
      (∀ x, Memory.read m.mem x = cellAfterWrite s a lo x) ∧
      ∀ x, Memory.read t.mem x = cellAfterWrite m (a + 1) hi x := by
  obtain rfl := eq_joinBytes hv
  have hnat : (BitVec.ofNat 16 a).toNat = a := Nat.mod_eq_of_lt (by omega)
  obtain ⟨m, t, hmlo, -, hlo, hhi, hexec⟩ := exec_write16_inRange hf hm (a := BitVec.ofNat 16 a) (by omega) hi lo
  obtain ⟨-, hbtn, hdpad, -⟩ := hmlo.fields
  rw [hnat] at hlo hhi
  exact ⟨m, _, hexec, hbtn, hdpad, hlo, hhi⟩

/-- The byte DMA copies to `x` lies in the cell 0xFF45 for page 0xFF and x = 0xFE45 only. -/
theorem dmaSource_eq_ff45_iff {page : Byte} {x : Nat} (hx : 0xFE00 ≤ x ∧ x < 0xFEA0) :
    page.toNat * 256 + (x - 0xFE00) = 0xFF45 ↔ page = 0xFF#8 ∧ x = 0xFE45 := by
  have hpage : page = 0xFF#8 ↔ page.toNat = 0xFF := BitVec.toNat_eq
  rw [hpage]
  omega

/-- Settles O22: at each address the two halves are dispatched on their own, the high one after the low one. -/
theorem splitWritesFireTheirHandlers : Obligations.SplitWritesFireTheirHandlers := by
  intro hi lo v s hf hm hv
  refine ⟨?_, ?_, ?_, ?_, ?_⟩
  · obtain ⟨m, t, hexec, -, -, hlo, hhi⟩ := write16_cells hf hm hv (a := 0x7FFF) (by decide)
    refine ⟨t, hexec, fun x => ?_⟩
    rw [hhi, cellAfterWrite_plain m (a := 0x8000) (by simp [PlainAddr]), hlo, cellAfterWrite_rom s (by decide)]
  · obtain ⟨m, t, hexec, hbtn, hdpad, hlo, hhi⟩ := write16_cells hf hm hv (a := 0xFEFF) (by decide)
    refine ⟨t, hexec, fun x => ?_⟩
    rw [hhi, cellAfterWrite_joyp, hbtn, hdpad, hlo, cellAfterWrite_plain s (by simp [PlainAddr])]
    exact ite_ite_comm _ _ _ _ (by omega)
  · obtain ⟨m, t, hexec, -, -, hlo, hhi⟩ := write16_cells hf hm hv (a := 0xFF00) (by decide)
    refine ⟨t, hexec, fun x => ?_⟩
    rw [hhi, cellAfterWrite_plain m (a := 0xFF01) (by simp [PlainAddr]), hlo, cellAfterWrite_joyp]
    exact ite_ite_comm _ _ _ _ (by omega)
  · obtain ⟨m, t, hexec, -, -, hlo, hhi⟩ := write16_cells hf hm hv (a := 0xFF45) (by decide)
    have hplain : PlainAddr 0xFF45 := by simp [PlainAddr]
    refine ⟨t, hexec, fun x => ?_⟩
    rw [hhi, cellAfterWrite_dma, hlo, hlo, cellAfterWrite_plain s hplain, cellAfterWrite_plain s hplain]
    by_cases hx : 0xFE00 ≤ x ∧ x < 0xFEA0
    · simp only [hx, and_self, if_true, dmaSource_eq_ff45_iff hx, show x ≠ 0xFF45 by omega, if_false]
    · simp only [hx, if_false]
  · obtain ⟨m, t, hexec, -, -, hlo, hhi⟩ := write16_cells hf hm hv (a := 0xFF46) (by decide)
    refine ⟨t, hexec, fun x => ?_⟩
    rw [hhi, cellAfterWrite_plain m (a := 0xFF47) (by simp [PlainAddr]), hlo, cellAfterWrite_dma]

end Sys2Proof.Machine

/-! # The interrupt controller (41_interrupt_controller.md): SETINT (O35), SETIME (O37), CHECKINT (O41 to O45 and O47)
and the commands of a Call (O52, O53) -/

namespace Sys2Proof.Machine

/-! ## The lines as bits (R17, R59, R62) -/

theorem lineNumber_lt (l : Line) : lineNumber l < 8 := by cases l <;> decide

theorem lineNumber_injective : Function.Injective lineNumber := by
  intro l k; cases l <;> cases k <;> simp [lineNumber]

theorem getLsbD_lineBit (l : Line) {j : Nat} (hj : j < 8) : (lineBit l).getLsbD j = (j == lineNumber l) := by
  revert j; cases l <;> decide

theorem getLsbD_withRequest (l : Line) (v : Byte) {j : Nat} (hj : j < 8) :
    (withRequest l v).getLsbD j = (v.getLsbD j || j == lineNumber l) := by
  rw [withRequest, BitVec.getLsbD_or, getLsbD_lineBit l hj]

/-- In a byte, `0xFF - (1 << i)` is the complement of `1 << i`. -/
theorem sub_lineBit (l : Line) : 0xFF#8 - lineBit l = ~~~lineBit l := by cases l <;> rfl

theorem getLsbD_withoutRequest (l : Line) (v : Byte) {j : Nat} (hj : j < 8) :
    (withoutRequest l v).getLsbD j = (v.getLsbD j && j != lineNumber l) := by
  rw [withoutRequest, sub_lineBit, BitVec.getLsbD_and, BitVec.getLsbD_not, getLsbD_lineBit l hj, decide_eq_true hj,
    Bool.true_and, bne]

/-! ## SETINT and SETIME (R62, R63) -/

/-- SETINT's X field is the line's number. -/
theorem setint_xField (l : Line) : BitVec.ofNat 4 (lineNumber l) = 0#1 ++ bitsOfLine l := by cases l <;> rfl

theorem illegalKind_setint {x : BitVec 3} (hx : 5 ≤ x.toNat) : IllegalKind (wordOf 0x8#4 (0#1 ++ x) 0 0 0) := by
  refine .inr (.inr ⟨opField_wordOf _ _ _ _ _, ?_⟩)
  rwa [← lineBits_xField, xField_wordOf, lineBits_append]

/-- Settles O35: the request ORs the line's bit into IF, and X[2:0] in 5..7 names no line. -/
theorem setintSetsOneRequestBit : Obligations.SetintSetsOneRequestBit := by
  refine ⟨fun x hx => decode_error_of_not_decodes (not_decodes_of_illegalKind (illegalKind_setint hx)), ?_⟩
  intro l s hf hm
  have hdecode : decode (wordOf 0x8#4 (BitVec.ofNat 4 (lineNumber l)) 0 0 0) = .ok (.setint l) :=
    decode_of_encode (by rw [setint_xField]; rfl)
  refine ⟨hdecode, _, exec_setint hf l, rfl, fun x hx => read_ifStore_other hx _ s, fun j hj => ?_⟩
  rw [← getLsbD_withRequest l _ hj]
  exact congrArg (·.getLsbD j) (Memory.read_write_same hm ifAddr _)

/-- Settles O37: the word is SETIME's encoding, and its effect is the update of IME. -/
theorem setimeWritesIme : Obligations.SetimeWritesIme :=
  fun b _ hf => ⟨decode_of_encode (i := .setime b) rfl, exec_setime hf b⟩

/-! ## One line of CHECKINT (R59, R74) -/

/-- IE and IF in `s` make the line pending and enabled. -/
def State.requests (s : State) (l : Line) : Bool :=
  lineRequested l (Memory.read s.mem ieAddr) (Memory.read s.mem ifAddr)

theorem requestedLines_eq (s : State) : requestedLines s = linesInPriority.filter s.requests := rfl

/-- Interrupt entry for the line: Wake, IF bit cleared, IME false, Call, and the commands of the Call taken from the
input, not yet run (60_exceptions.md R74). -/
def interruptEntry (l : Line) (s : State) : State :=
  { s with mem := Memory.write s.mem ifAddr (withoutRequest l (Memory.read s.mem ifAddr)), ime := false,
           cpuCalls := s.cpuCalls.drop 1, trace := s.trace ++ [.wake, .call (lineVector l)] }

/-- A Call past the end of the input issues no command (log 10). -/
theorem cpuCall_eq (s : State) : cpuCall s = callCommands (s.cpuCalls.headD []) (s.setCalls (s.cpuCalls.drop 1)) := by
  rcases hc : s.cpuCalls with _ | ⟨ws, rest⟩
  · have hsame : s.setCalls [] = s := by rw [← hc]; rfl
    rw [cpuCall_none hc, List.drop_nil, hsame]; rfl
  · simp only [cpuCall, hc]; rfl

theorem checkLine_idle (ime0 : Bool) {l : Line} {s : State} (h : s.requests l = false) :
    checkLine ime0 l s = .ok () s := by
  rw [State.requests] at h
  rw [checkLine_eq, h]; rfl

theorem checkLine_wake {l : Line} {s : State} (h : s.requests l = true) :
    checkLine false l s = .ok () (s.push .wake) := by
  rw [State.requests] at h
  rw [checkLine_eq, h]; rfl

/-- A requested line is entered, and then the first waiting Call's commands run. -/
theorem checkLine_dispatch {l : Line} {s : State} (h : s.requests l = true) :
    checkLine true l s = callCommands (s.cpuCalls.headD []) (interruptEntry l s) := by
  rw [State.requests] at h
  rw [checkLine_eq, h, if_pos rfl, if_pos rfl, dispatchLine_eq, cpuCall_eq]
  congr 1
  simp [interruptEntry, rawStore_eq, State.setMem, State.setIme, State.setCalls, State.push]

theorem wf_interruptEntry (l : Line) {s : State} (hm : Memory.wf s.mem) : Memory.wf (interruptEntry l s).mem :=
  Memory.wf_write hm (by decide)

theorem read_interruptEntry_other (l : Line) (s : State) {x : Nat} (hx : x ≠ ifAddr) :
    Memory.read (interruptEntry l s).mem x = Memory.read s.mem x := Memory.read_write_other _ _ hx

/-- Entry clears the line's own IF bit and no other. -/
theorem interruptEntry_ifBit (l : Line) {s : State} (hm : Memory.wf s.mem) {j : Nat} (hj : j < 8) :
    (Memory.read (interruptEntry l s).mem ifAddr).getLsbD j =
      ((Memory.read s.mem ifAddr).getLsbD j && j != lineNumber l) := by
  rw [← getLsbD_withoutRequest l _ hj]
  exact congrArg (·.getLsbD j) (Memory.read_write_same hm ifAddr _)

/-- Entry for one line leaves the requests of the others. -/
theorem interruptEntry_requests {l k : Line} (hk : k ≠ l) {s : State} (hm : Memory.wf s.mem) :
    (interruptEntry l s).requests k = s.requests k := by
  have hne : (lineNumber k != lineNumber l) = true := bne_iff_ne.mpr fun e => hk (lineNumber_injective e)
  rw [State.requests, lineRequested, read_interruptEntry_other l s (by decide),
    interruptEntry_ifBit l hm (lineNumber_lt k), hne, Bool.and_true]
  rfl

/-! ## The lines in order (R60) -/

theorem checkLines_append (ime0 : Bool) (ls ks : List Line) (s : State) :
    checkLines ime0 (ls ++ ks) s = (checkLines ime0 ls s).andThen fun _ t => checkLines ime0 ks t := by
  induction ls generalizing s with
  | nil => rfl
  | cons l ls ih =>
    simp only [List.cons_append, checkLines]
    rcases checkLine ime0 l s with ⟨_, t⟩ | ⟨addr, t⟩
    · exact ih t
    · rfl

/-- Lines that are not requested do nothing, whatever IME is. -/
theorem checkLines_idle (ime0 : Bool) {ls : List Line} {s : State} (h : ∀ l ∈ ls, s.requests l = false) :
    checkLines ime0 ls s = .ok () s := by
  induction ls with
  | nil => rfl
  | cons l ls ih =>
    obtain ⟨hl, hls⟩ := List.forall_mem_cons.mp h
    rw [checkLines, checkLine_idle ime0 hl, andThen_ok, ih hls]

/-- With IME false at entry each requested line is woken. -/
theorem checkLines_wake (ls : List Line) (s : State) : checkLines false ls s =
    .ok () { s with trace := s.trace ++ (ls.filter s.requests).map fun _ => Output.wake } := by
  induction ls generalizing s with
  | nil => simp [checkLines]
  | cons l ls ih =>
    rcases hl : s.requests l with _ | _
    · rw [checkLines, checkLine_idle false hl, andThen_ok, ih, List.filter_cons_of_neg (by simp [hl])]
    · have hsame : (s.push .wake).requests = s.requests := rfl
      rw [checkLines, checkLine_wake hl, andThen_ok, ih, hsame, List.filter_cons_of_pos hl]
      simp [State.push]

/-- None of the coming Calls issues a command. -/
def SilentCalls (s : State) : Prop := ∀ ws ∈ s.cpuCalls, ws = []

theorem SilentCalls.entry {s : State} (h : SilentCalls s) (l : Line) : SilentCalls (interruptEntry l s) :=
  fun ws hws => h ws (List.mem_of_mem_drop hws)

/-- With no command in its Call, the dispatch is the entry. -/
theorem checkLine_silent {l : Line} {s : State} (hq : SilentCalls s) (h : s.requests l = true) :
    checkLine true l s = .ok () (interruptEntry l s) := by
  have hfirst : s.cpuCalls.headD [] = [] := by
    rcases hc : s.cpuCalls with _ | ⟨ws, rest⟩
    · rfl
    · exact hq ws (hc ▸ List.mem_cons_self)
  rw [checkLine_dispatch h, hfirst]; rfl

/-- No line raises when no Call issues a command. -/
theorem checkLines_completes (ime0 : Bool) (ls : List Line) {s : State} (hq : SilentCalls s) :
    ∃ t, checkLines ime0 ls s = .ok () t := by
  cases ime0 with
  | false => exact ⟨_, checkLines_wake ls s⟩
  | true =>
    induction ls generalizing s with
    | nil => exact ⟨s, rfl⟩
    | cons l ls ih =>
      rw [checkLines]
      rcases hl : s.requests l with _ | _
      · rw [checkLine_idle true hl]; exact ih hq
      · rw [checkLine_silent hq hl]; exact ih (hq.entry l)

/-- `t` is `s` after interrupt entry for the lines `ls` in order, in each of whose Calls no command was issued. -/
structure Dispatched (ls : List Line) (s t : State) : Prop where
  same : t = { s with mem := t.mem, ime := s.ime && ls.isEmpty, cpuCalls := s.cpuCalls.drop ls.length,
                      trace := s.trace ++ ls.flatMap fun l => [Output.wake, .call (lineVector l)] }
  keeps : ∀ x, x ≠ ifAddr → Memory.read t.mem x = Memory.read s.mem x
  ifBit : ∀ j < 8, (Memory.read t.mem ifAddr).getLsbD j =
    ((Memory.read s.mem ifAddr).getLsbD j && !(ls.map lineNumber).contains j)

theorem Dispatched.nil (s : State) : Dispatched [] s s := ⟨by simp, fun _ _ => rfl, by simp⟩

theorem Dispatched.cons {l : Line} {ls : List Line} {s t : State} (hm : Memory.wf s.mem)
    (h : Dispatched ls (interruptEntry l s) t) : Dispatched (l :: ls) s t where
  same := by
    rw [h.same]
    simp [interruptEntry]
  keeps x hx := (h.keeps x hx).trans (read_interruptEntry_other l s hx)
  ifBit j hj := by
    rw [h.ifBit j hj, interruptEntry_ifBit l hm hj, List.map_cons, List.contains_cons, Bool.not_or, Bool.and_assoc, bne]

/-- With IME true at entry and Calls that issue no command, the lines dispatched are those requested at the start: an
entry clears its own line's request only, and no line is visited twice. -/
theorem checkLines_silent {ls : List Line} (hnodup : ls.Nodup) {s : State} (hm : Memory.wf s.mem) (hq : SilentCalls s) :
    ∃ t, checkLines true ls s = .ok () t ∧ Dispatched (ls.filter s.requests) s t := by
  induction ls generalizing s with
  | nil => exact ⟨s, rfl, .nil s⟩
  | cons l ls ih =>
    obtain ⟨hl, hls⟩ := List.nodup_cons.mp hnodup
    rw [checkLines]
    rcases hreq : s.requests l with _ | _
    · rw [checkLine_idle true hreq, List.filter_cons_of_neg (by simp [hreq])]
      exact ih hls hm hq
    · have hrest : ls.filter (interruptEntry l s).requests = ls.filter s.requests :=
        List.filter_congr fun k hk => interruptEntry_requests (ne_of_mem_of_not_mem hk hl) hm
      obtain ⟨t, hrun, hdisp⟩ := ih hls (wf_interruptEntry l hm) (hq.entry l)
      rw [checkLine_silent hq hreq, List.filter_cons_of_pos hreq]
      exact ⟨t, hrun, .cons hm (hrest ▸ hdisp)⟩

/-! ## CHECKINT (R59) -/

/-- CHECKINT whose lines complete answers Done. -/
theorem exec_checkint_ok {s t : State} (hf : s.fault = none) (h : checkLines s.ime linesInPriority s = .ok () t) :
    exec .checkint s = .next (t.push (.response .done)) := by
  rw [exec_checkint hf, h]; rfl

theorem exec_checkint_raised {s t : State} {addr : Nat} (hf : s.fault = none)
    (h : checkLines s.ime linesInPriority s = .raised addr t) : exec .checkint s = .next (takeFault addr t) := by
  rw [exec_checkint hf, h]; rfl

/-- Settles O41: the lines end with a Done or with a Call's fault, in either case keeping what `InCheck` says; and with
no Call left to issue a command they do not raise. -/
theorem checkintAlwaysCompletes : Obligations.CheckintAlwaysCompletes := by
  intro s hf
  rcases checkLines_ends s.ime linesInPriority s with ⟨_, u, hrun, hu⟩ | ⟨u, hrun, hu⟩
  · exact ⟨_, exec_checkint_ok hf hrun, hu.btn, hu.dpad, hu.port, hu.ime, fun _ => hu.fault.trans hf⟩
  · refine ⟨_, exec_checkint_raised hf hrun, hu.btn, hu.dpad, hu.port, hu.ime, fun hcalls => ?_⟩
    obtain ⟨t, ht⟩ := checkLines_completes s.ime linesInPriority (s := s) (by simp [SilentCalls, hcalls])
    rw [ht] at hrun; cases hrun

/-- No line is requested when `IE & IF & 0x1F` is 0: every line's bit is one of the five. -/
theorem requests_false_of_and {s : State}
    (h : Memory.read s.mem 0xFFFF &&& Memory.read s.mem 0xFF0F &&& 0x1F#8 = 0#8) (l : Line) : s.requests l = false := by
  have hfive : (0x1F#8).getLsbD (lineNumber l) = true := by cases l <;> rfl
  have hbit := congrArg (·.getLsbD (lineNumber l)) h
  rw [State.requests, lineRequested, ieAddr, ifAddr]
  simpa [hfive] using hbit

/-- Settles O42: no line is requested. -/
theorem checkintWithoutRequestsDoesNothing : Obligations.CheckintWithoutRequestsDoesNothing :=
  fun s hf h => exec_checkint_ok hf (checkLines_idle s.ime fun l _ => requests_false_of_and h l)

/-- Settles O43: with IME false at entry the lines only wake. -/
theorem checkintWithImeFalseOnlyWakes : Obligations.CheckintWithImeFalseOnlyWakes := by
  intro s hf hime
  have hrun := checkLines_wake linesInPriority s
  rw [← hime] at hrun
  exact exec_checkint_ok hf hrun

/-- Settles O44: the requested lines are dispatched in the order CHECKINT visits them. -/
theorem checkintDispatchesEveryRequestedLine : Obligations.CheckintDispatchesEveryRequestedLine := by
  intro s hf hm hime hq
  obtain ⟨t, hrun, hdisp⟩ := checkLines_silent (ls := linesInPriority) (by decide) hm hq
  refine ⟨_, exec_checkint_ok hf (hime ▸ hrun), ?_, hdisp.keeps, hdisp.ifBit⟩
  rw [hdisp.same, hime]; rfl

/-- Settles O45: of the five lines, VBLANK and TIMER are requested, and O44 says the rest. -/
theorem workedCheckintCallsTwoVectors : Obligations.WorkedCheckintCallsTwoVectors := by
  intro s hf hm hime hcalls hie hif
  have hlines : requestedLines s = [.vblank, .timer] := by
    rw [requestedLines, hie, hif]; rfl
  obtain ⟨t, hexec, hsame, -, hbits⟩ :=
    checkintDispatchesEveryRequestedLine s hf hm hime (by simp [hcalls])
  rw [hlines] at hsame hbits
  refine ⟨t, hexec, BitVec.eq_of_getLsbD_eq fun j hj => ?_, by rw [hsame]; rfl, ?_⟩
  · rw [hbits j hj, hif]
    revert j; decide
  · rw [hsame, List.append_assoc]; rfl

/-! ## A Call that issues commands (R59 f, R90) -/

theorem Ends.of_ok {α : Type} {r : Res α} {R : State → Prop} (h : Ends r R) {a : α} {t : State} (e : r = .ok a t) :
    R t := by
  rcases h with ⟨a', t', rfl, h⟩ | ⟨t', rfl, h⟩ <;> cases e
  exact h

theorem linesInPriority_sorted : linesInPriority.Pairwise fun l k => lineNumber l < lineNumber k := by decide

/-- The lines CHECKINT visits after `l` are those of lower priority. -/
theorem linesAfter_eq {l : Line} {before after : List Line} (h : linesInPriority = before ++ l :: after) :
    after = linesInPriority.filter fun k => decide (lineNumber l < lineNumber k) := by
  have hsorted := linesInPriority_sorted
  rw [h, List.pairwise_append, List.pairwise_cons] at hsorted
  obtain ⟨-, ⟨hafter, -⟩, hbefore⟩ := hsorted
  have hnone : before.filter (fun k => decide (lineNumber l < lineNumber k)) = [] := by
    refine List.filter_eq_nil_iff.mpr fun k hk => ?_
    simpa using Nat.le_of_lt (hbefore k hk l List.mem_cons_self)
  rw [h, List.filter_append, hnone, List.filter_cons_of_neg (by simp), List.nil_append, List.filter_eq_self.mpr]
  exact fun k hk => decide_eq_true (hafter k hk)

/-- CHECKINT up to its first requested line `l`, and the lines then left. -/
theorem checkLines_first {s : State} {l : Line} {ls : List Line} (h : requestedLines s = l :: ls) :
    ∃ after, after.Nodup ∧ after = linesInPriority.filter (fun k => decide (lineNumber l < lineNumber k)) ∧
      checkLines true linesInPriority s =
        (callCommands (s.cpuCalls.headD []) (interruptEntry l s)).andThen fun _ t => checkLines true after t := by
  obtain ⟨before, after, hsplit, hidle, hl, -⟩ := List.filter_eq_cons_iff.mp h
  have hafter := linesAfter_eq hsplit
  refine ⟨after, hafter ▸ List.Nodup.filter _ (by decide), hafter, ?_⟩
  have hskip := checkLines_idle true fun k hk => eq_false_of_ne_true (hidle k hk)
  rw [hsplit, checkLines_append, hskip, andThen_ok, checkLines, checkLine_dispatch hl]

/-- Settles O47: the state `e` is interrupt entry for the first requested line; what the Call leaves decides the later
lines, because each reads IE and IF afresh. -/
theorem checkintRereadsIeAndIfAfterACall : Obligations.CheckintRereadsIeAndIfAfterACall := by
  intro s l ls ws rest hf hm hime hlines hcalls hrest
  obtain ⟨after, hnodup, hafter, hfirst⟩ := checkLines_first hlines
  rw [hcalls, List.headD_cons] at hfirst
  refine ⟨interruptEntry l s, by simp [interruptEntry, hcalls], fun x hx => read_interruptEntry_other l s hx,
    fun j hj => interruptEntry_ifBit l hm hj, fun u hu => ?_, fun addr u hu => ?_⟩
  · have hcall := (callCommands_ends ws (interruptEntry l s)).of_ok hu
    have hleft : u.cpuCalls = rest := hcall.calls.trans (by simp [interruptEntry, hcalls])
    have hlater : after.filter u.requests =
        (requestedLines u).filter fun k => decide (lineNumber l < lineNumber k) := by
      rw [hafter, requestedLines_eq, List.filter_comm]
    obtain ⟨t, hrun, hdisp⟩ :=
      checkLines_silent hnodup (hcall.wf (wf_interruptEntry l hm)) fun c hc => hrest c (hleft ▸ hc)
    rw [hu, andThen_ok, hrun] at hfirst
    refine ⟨_, _, exec_checkint_ok hf (hime ▸ hfirst), hlater, ?_, hdisp.keeps, hdisp.ifBit⟩
    have himeFalse : u.ime = false := hcall.ime
    rw [hdisp.same, himeFalse, hleft]
    simp [State.push]
  · rw [hu, andThen_raised] at hfirst
    exact exec_checkint_raised hf (hime ▸ hfirst)

/-! ## The commands of a Call (R61) -/

/-- A command of a Call that completes leaves its response as a reply. -/
theorem callCommand_ok {w : Command} {i : Instr} {act : State → Res Response} (hd : decode w = .ok i)
    (hm : memoryCommand i = some act) {s u : State} {r : Response} (h : act s = .ok r u) :
    callCommand w s = .ok () (u.push (.reply r)) := by
  simp only [callCommand, hd, hm, h]

theorem callCommand_raised {w : Command} {i : Instr} {act : State → Res Response} (hd : decode w = .ok i)
    (hm : memoryCommand i = some act) {s u : State} {addr : Nat} (h : act s = .raised addr u) :
    callCommand w s = .raised addr (u.push (.reply (.fault (outOfRange addr)))) := by
  simp only [callCommand, hd, hm, h]

/-- A word that is no memory command is refused. -/
theorem callCommand_refused {w : Command} (h : ∀ i, decode w = .ok i → memoryCommand i = none) (s : State) :
    callCommand w s = .ok () (refuseInCall s) := by
  rcases hd : decode w with e | i
  · simp only [callCommand, hd]
  · simp only [callCommand, hd, h i hd]

/-- The six commands of R61 (d) have a body to run inside a Call. -/
theorem exists_memoryCommand {i : Instr}
    (h : (∃ a, i = .read a) ∨ (∃ a, i = .read16 a) ∨ (∃ a e, i = .readrange a e) ∨ (∃ a v, i = .write a v) ∨
      (∃ a hi lo, i = .write2 a hi lo) ∨ ∃ a v, i = .write16 a v) : ∃ act, memoryCommand i = some act := by
  rcases h with ⟨a, rfl⟩ | ⟨a, rfl⟩ | ⟨a, e, rfl⟩ | ⟨a, v, rfl⟩ | ⟨a, hi, lo, rfl⟩ | ⟨a, v, rfl⟩ <;> exact ⟨_, rfl⟩

/-- One memory command at the port and inside a Call: the same body, ended by its response or by its reply. -/
theorem callCommand_eq_exec {w : Command} {i : Instr} {act : State → Res Response} (hd : decode w = .ok i)
    (hm : memoryCommand i = some act) {s : State} (hf : s.fault = none) :
    ∃ (t : State) (r : Response), exec i s = .next t ∧ t.trace = s.trace ++ [.response r] ∧
      (t.fault = none → callCommand w s = .ok () { t with trace := s.trace ++ [.reply r] }) ∧
      ∀ f, t.fault = some f →
        callCommand w s = .raised f.addr { t with fault := none, trace := s.trace ++ [.reply r] } := by
  rcases memoryCommand_ends hm s with ⟨r, u, hact, hu⟩ | ⟨u, hact, hu⟩
  · have hexec : exec i s = .next (u.push (.response r)) := by rw [exec_memoryCommand hm hf, hact, complete_ok]
    refine ⟨_, r, hexec, ?_, fun _ => ?_, fun f h => ?_⟩
    · rw [State.push_trace, hu.trace]
    · rw [callCommand_ok hd hm hact, hu.push_eq, hu.push_eq]
    · rw [hu.push_eq, hf] at h; cases h
  · have hexec : exec i s = .next (takeFault 0x10000 u) := by rw [exec_memoryCommand hm hf, hact, complete_raised]
    refine ⟨_, .fault (outOfRange 0x10000), hexec, ?_, nofun, fun f h => ?_⟩
    · exact congrArg (· ++ _) hu.trace
    · cases h
      rw [callCommand_raised hd hm hact, hu.push_eq, takeFault, hu.same, ← hf]
      rfl

/-- Settles O52: `callCommand_eq_exec` for each command, and the recursion of `callCommands` for their order. -/
theorem callCommandsHaveTheirFullEffect : Obligations.CallCommandsHaveTheirFullEffect := by
  refine ⟨fun s w i hf hd hi => ?_, fun s t w ws => ⟨rfl, fun h => ?_, fun addr h => ?_⟩⟩
  · obtain ⟨act, hm⟩ := exists_memoryCommand hi
    exact callCommand_eq_exec hd hm hf
  · rw [callCommands, h, andThen_ok]
  · rw [callCommands, h, andThen_raised]

/-- Settles O53: none of these words decodes to a memory command. -/
theorem callOutsideTheContractIsRefused : Obligations.CallOutsideTheContractIsRefused := by
  intro s w h
  have outside : ∀ {j : Instr}, decode w = .ok j → memoryCommand j = none →
      ∀ i, decode w = .ok i → memoryCommand i = none := fun hj hnone i hi => by
    obtain rfl : _ = i := Except.ok.inj (hj.symm.trans hi)
    exact hnone
  refine callCommand_refused ?_ s
  rcases h with h | ⟨l, h⟩ | ⟨b, h⟩ | ⟨m, h⟩ | ⟨m, h⟩ | ⟨m, h⟩ | ⟨m, h⟩ | hillegal
  on_goal 8 => exact fun i hi => absurd ⟨i, hi⟩ (not_decodes_of_illegalKind hillegal)
  all_goals exact outside h rfl

end Sys2Proof.Machine

/-! # The input controller (42_input_controller.md): UPDATEJOYP (O30), the presses (O31) and the releases (O32) -/

namespace Sys2Proof.Machine

/-! ## The group masks and the joypad register, bit by bit (R64, R65, R66) -/

/-- In a nibble, `0xF - m` is the complement of `m`. -/
theorem nibble_complement (m : Nibble) : 0xF#4 - m = ~~~m := BitVec.allOnes_sub_eq_not m

theorem getLsbD_released (g m : Nibble) {j : Nat} (hj : j < 4) :
    (released g m).getLsbD j = (g.getLsbD j || !m.getLsbD j) := by
  rw [released, nibble_complement, BitVec.getLsbD_or, BitVec.getLsbD_not, decide_eq_true hj, Bool.true_and]

theorem getLsbD_pressed (g m : Nibble) (j : Nat) : (pressed g m).getLsbD j = (g.getLsbD j && m.getLsbD j) :=
  BitVec.getLsbD_and

/-- A group that is not selected reads as four lines not pressed. -/
theorem getLsbD_selectedGroup (selected : Bool) (g : Nibble) {j : Nat} (hj : j < 4) :
    (if selected then g else 0xF#4).getLsbD j = (!selected || g.getLsbD j) := by
  cases selected
  · exact BitVec.getLsbD_allOnes.trans (decide_eq_true hj)
  · rfl

theorem getLsbD_joypLow (sel : Byte) (btn dpad : Nibble) {j : Nat} (hj : j < 4) :
    (joypLow sel btn dpad).getLsbD j =
      ((!sel.getLsbD 4 || dpad.getLsbD j) && (!sel.getLsbD 5 || btn.getLsbD j)) := by
  have hstart : 0xF#4 &&& (if sel.getLsbD 4 then dpad else 0xF#4) = if sel.getLsbD 4 then dpad else 0xF#4 :=
    BitVec.allOnes_and
  rw [joypLow, hstart, BitVec.getLsbD_and, getLsbD_selectedGroup _ _ hj, getLsbD_selectedGroup _ _ hj]

/-- The mask 0xF0 keeps the upper nibble. -/
theorem getLsbD_upperNibble {j : Nat} (hj : j < 8) : (0xF0#8).getLsbD j = decide (4 ≤ j) := by
  revert j; decide

/-- The select byte gives the upper nibble, the selected groups the lower one. -/
theorem getLsbD_joypValue (sel : Byte) (btn dpad : Nibble) {j : Nat} (hj : j < 8) :
    (joypValue sel btn dpad).getLsbD j = (sel.getLsbD j && decide (4 ≤ j) || (joypLow sel btn dpad).getLsbD j) := by
  rw [joypValue, BitVec.getLsbD_or, BitVec.getLsbD_and, getLsbD_upperNibble hj, BitVec.getLsbD_setWidth,
    decide_eq_true hj, Bool.true_and]

theorem getLsbD_joypValue_high (sel : Byte) (btn dpad : Nibble) {j : Nat} (hlow : 4 ≤ j) (hj : j < 8) :
    (joypValue sel btn dpad).getLsbD j = sel.getLsbD j := by
  rw [getLsbD_joypValue _ _ _ hj, BitVec.getLsbD_of_ge _ _ hlow, decide_eq_true hlow, Bool.and_true, Bool.or_false]

theorem getLsbD_joypValue_low (sel : Byte) (btn dpad : Nibble) {j : Nat} (hj : j < 4) :
    (joypValue sel btn dpad).getLsbD j = (joypLow sel btn dpad).getLsbD j := by
  rw [getLsbD_joypValue _ _ _ (by omega), decide_eq_false (Nat.not_le.mpr hj), Bool.and_false, Bool.false_or]

/-! ## UPDATEJOYP, the presses and the releases -/

/-- Settles O30: the one cell stored is 0xFF00, and it holds `joypValue`, known bit by bit. -/
theorem updateJoypStoresTheMultiplexedValue : Obligations.UpdateJoypStoresTheMultiplexedValue := by
  intro sel s hf hm
  have hcell : Memory.read (updateJoyp sel s).mem 0xFF00 = joypValue sel s.btn s.dpad := Memory.read_write_same hm _ _
  refine ⟨updateJoyp sel s, exec_updatejoyp hf sel, rfl, fun x hx => Memory.read_write_other _ _ hx, ?_, ?_⟩
  · intro j hlow hj
    rw [hcell, getLsbD_joypValue_high _ _ _ hlow hj]
  · intro j hj
    rw [hcell, getLsbD_joypValue_low _ _ _ hj, getLsbD_joypLow _ _ _ hj]

/-- Settles O31: the INPUT request ORs its bit into IF from the old IF alone, whatever the press did to its group. -/
theorem pressClearsLinesAndRequestsInput : Obligations.PressClearsLinesAndRequestsInput := by
  intro m s hf hm
  refine ⟨rfl, rfl, (rawStore ifAddr (withRequest .input (Memory.read s.mem ifAddr)) s).mem, pressed s.btn m,
    pressed s.dpad m, exec_pressb hf m, exec_pressd hf m, fun j _ => getLsbD_pressed _ _ j,
    fun j _ => getLsbD_pressed _ _ j, fun x hx => read_ifStore_other hx _ s, fun j hj => ?_⟩
  have hcell : Memory.read (rawStore ifAddr (withRequest .input (Memory.read s.mem ifAddr)) s).mem 0xFF0F =
      withRequest .input (Memory.read s.mem ifAddr) := Memory.read_write_same hm ifAddr _
  rw [hcell]
  exact getLsbD_withRequest .input _ hj

/-- Settles O32: a release is one update of its group, with no request. -/
theorem unpressSetsLinesOnly : Obligations.UnpressSetsLinesOnly :=
  fun m s hf => ⟨rfl, rfl, released s.btn m, released s.dpad m, exec_unpressb hf m, exec_unpressd hf m,
    fun _ hj => getLsbD_released _ _ hj, fun _ hj => getLsbD_released _ _ hj⟩

end Sys2Proof.Machine

/-! # The DMA engine (43_dma_engine.md): the copy (O27), page 0xFE (O28) and a second DMA of the same page (O29) -/

namespace Sys2Proof.Machine

/-! ## The two ranges of a DMA (R68 a) -/

section

variable {m : Memory} {k : Nat}

/-- R69 (1): OAM holds the page's bytes as they were at the start. -/
theorem read_dmaMemory_oam (page : Nat) (hm : Memory.wf m) (hk : k < 160) :
    Memory.read (dmaMemory (page * 256) 160 0 m) (0xFE00 + k) = Memory.read m (page * 256 + k) := by
  rw [read_dmaMemory (by omega) hm, if_pos (by omega), Nat.add_sub_cancel_left]

/-- The source bytes stay as they were: a page that meets OAM is OAM's own. -/
theorem read_dmaMemory_source (page : Nat) (hm : Memory.wf m) (hk : k < 160) :
    Memory.read (dmaMemory (page * 256) 160 0 m) (page * 256 + k) = Memory.read m (page * 256 + k) := by
  by_cases hown : page = 0xFE
  · subst hown
    exact read_dmaMemory_oam 0xFE hm hk
  · exact read_dmaMemory_other (by omega) m (by omega)

/-- Page 0xFE copies every OAM byte onto itself. -/
theorem dmaMemory_ownPage (hm : Memory.wf m) : dmaMemory (0xFE * 256) 160 0 m = m := by
  refine Memory.ext_read (wf_dmaMemory (by omega) hm) hm fun x => ?_
  by_cases hx : x < 0xFE00 ∨ 0xFEA0 ≤ x
  · exact read_dmaMemory_other (by omega) m hx
  · obtain ⟨k, rfl⟩ := Nat.exists_eq_add_of_le (show 0xFE00 ≤ x by omega)
    exact read_dmaMemory_oam 0xFE hm (by omega)

end

/-! ## DMA (R68, R69) -/

/-- Settles O27. -/
theorem dmaCopiesThePage : Obligations.DmaCopiesThePage := fun v _ hf hm =>
  ⟨_, exec_dma hf v, rfl, fun _ hk => read_dmaMemory_oam v.toNat hm hk,
    fun _ hx => read_dmaMemory_other (by omega) _ hx⟩

/-- Settles O28: the memory DMA leaves is the old one. -/
theorem dmaOfItsOwnPageChangesNothing : Obligations.DmaOfItsOwnPageChangesNothing := by
  intro s hf hm
  have hown : dmaMemory ((0xFE#8).toNat * 256) 160 0 s.mem = s.mem := dmaMemory_ownPage hm
  rw [exec_dma hf, hown, State.setMem_self]

/-- Settles O29: both copies read the same source bytes, because the first DMA leaves its own source as it was. -/
theorem dmaTwiceLeavesTheSameOam : Obligations.DmaTwiceLeavesTheSameOam := by
  intro v s t u w hs hu hst hpage _ huw k hk
  rw [exec_dma (fault_none_of_exec hst)] at hst
  rw [exec_dma (fault_none_of_exec huw)] at huw
  cases hst; cases huw
  calc Memory.read (dmaMemory (v.toNat * 256) 160 0 u.mem) (0xFE00 + k)
      = Memory.read u.mem (v.toNat * 256 + k) := read_dmaMemory_oam v.toNat hu hk
    _ = Memory.read (dmaMemory (v.toNat * 256) 160 0 s.mem) (v.toNat * 256 + k) := hpage k (by omega)
    _ = Memory.read s.mem (v.toNat * 256 + k) := read_dmaMemory_source v.toNat hs hk
    _ = Memory.read (dmaMemory (v.toNat * 256) 160 0 s.mem) (0xFE00 + k) := (read_dmaMemory_oam v.toNat hs hk).symm

end Sys2Proof.Machine

/-! # Exceptions (60_exceptions.md): which forms fault (O12), what clears a request (O38), and the order and the end of
a CHECKINT's Calls (O48 to O51) -/

namespace Sys2Proof.Machine

/-! ## What one word of a Call can do (R70, R61) -/

/-- The word is one of the four forms of R70's table that raise. -/
def WordRaises (w : Command) : Prop := ∃ i, decode w = .ok i ∧ RaisesOutOfRange i

/-- The reply of the command that raised, the last entry a Call leaves in the trace (log 12). -/
def faultReply : Output := .reply (.fault (outOfRange 0x10000))

/-- The trace grew by the replies of `n` commands that raised no fault. -/
def AddsReplies (n : Nat) (s t : State) : Prop := ∃ rs : List Response,
  rs.length = n ∧ (∀ r ∈ rs, ∀ f, r ≠ .fault f) ∧ t.trace = s.trace ++ rs.map .reply

theorem AddsReplies.refl (s : State) : AddsReplies 0 s s := ⟨[], rfl, by simp, by simp⟩

theorem AddsReplies.trans {n k : Nat} {s t u : State} (h1 : AddsReplies n s t) (h2 : AddsReplies k t u) :
    AddsReplies (n + k) s u := by
  obtain ⟨rs, hlen, hrs, htrace⟩ := h1
  obtain ⟨qs, hlen', hqs, htrace'⟩ := h2
  refine ⟨rs ++ qs, by rw [List.length_append, hlen, hlen'], fun r hr => ?_, by simp [htrace', htrace]⟩
  exact (List.mem_append.mp hr).elim (hrs r) (hqs r)

theorem addsReplies_push {s u : State} (h : u.trace = s.trace) {r : Response} (hr : ∀ f, r ≠ .fault f) :
    AddsReplies 1 s (u.push (.reply r)) :=
  ⟨[r], rfl, by simpa using hr, by rw [State.push_trace, h]; rfl⟩

/-- R70's forms are memory commands. -/
theorem exists_memoryCommand_of_raises {i : Instr} (h : RaisesOutOfRange i) : ∃ act, memoryCommand i = some act := by
  rcases h with rfl | ⟨a, e, rfl, -⟩ | ⟨hi, lo, rfl⟩ | ⟨v, rfl⟩ <;> exact ⟨_, rfl⟩

theorem callCommand_raises {w : Command} (h : WordRaises w) (s : State) :
    ∃ u : State, callCommand w s = .raised 0x10000 (u.push faultReply) ∧ u.trace = s.trace := by
  obtain ⟨i, hd, hi⟩ := h
  obtain ⟨act, hm⟩ := exists_memoryCommand_of_raises hi
  rcases memoryCommand_completes hm s with ⟨-, u, hact⟩ | ⟨hn, -⟩
  · exact ⟨u, callCommand_raised hd hm hact, ((memoryCommand_ends hm s).raised hact).2.trace⟩
  · exact absurd hi hn

/-- Any other word, a refused one among them, completes with its reply. -/
theorem callCommand_completes {w : Command} (h : ¬ WordRaises w) (s : State) :
    ∃ u, callCommand w s = .ok () u ∧ AddsReplies 1 s u := by
  by_cases hout : ∀ i, decode w = .ok i → memoryCommand i = none
  · exact ⟨_, callCommand_refused hout s, addsReplies_push rfl nofun⟩
  · push Not at hout
    obtain ⟨i, hd, hsome⟩ := hout
    obtain ⟨act, hm⟩ := Option.ne_none_iff_exists'.mp hsome
    rcases memoryCommand_completes hm s with ⟨hi, -⟩ | ⟨-, r, u, hact⟩
    · exact absurd ⟨i, hd, hi⟩ h
    · exact ⟨_, callCommand_ok hd hm hact,
        addsReplies_push ((memoryCommand_ends hm s).of_ok hact).trace (memoryCommand_answers hm hact).2⟩

/-! ## The words of a Call in order -/

theorem callCommands_append (ws vs : List Command) (s : State) :
    callCommands (ws ++ vs) s = (callCommands ws s).andThen fun _ t => callCommands vs t := by
  induction ws generalizing s with
  | nil => rfl
  | cons w ws ih =>
    simp only [List.cons_append, callCommands]
    rcases callCommand w s with ⟨_, t⟩ | ⟨addr, t⟩
    · exact ih t
    · rfl

theorem callCommands_completes {ws : List Command} (h : ∀ w ∈ ws, ¬ WordRaises w) (s : State) :
    ∃ u, callCommands ws s = .ok () u ∧ AddsReplies ws.length s u := by
  induction ws generalizing s with
  | nil => exact ⟨s, rfl, .refl s⟩
  | cons w ws ih =>
    obtain ⟨hw, hws⟩ := List.forall_mem_cons.mp h
    obtain ⟨t, hword, ht⟩ := callCommand_completes hw s
    obtain ⟨u, hrun, hu⟩ := ih hws t
    refine ⟨u, by rw [callCommands, hword, andThen_ok, hrun], ?_⟩
    rw [List.length_cons, Nat.add_comm]
    exact ht.trans hu

/-- The first word that raises ends the Call. -/
theorem callCommands_raises {before : List Command} {w : Command} (hbefore : ∀ v ∈ before, ¬ WordRaises v)
    (hw : WordRaises w) (after : List Command) (s : State) :
    ∃ u : State, callCommands (before ++ w :: after) s = .raised 0x10000 (u.push faultReply) ∧
      AddsReplies before.length s u := by
  obtain ⟨v, hrun, rs, hlen, hrs, hv⟩ := callCommands_completes hbefore s
  obtain ⟨u, hword, hu⟩ := callCommand_raises hw v
  refine ⟨u, ?_, rs, hlen, hrs, hu.trans hv⟩
  rw [callCommands_append, hrun, andThen_ok, callCommands, hword, andThen_raised]

/-! ## A fault of the first Call (R73) -/

/-- A fault of the first Call ends the CHECKINT, in the state the Call left. -/
theorem exec_checkint_firstCall_raised {s u : State} {l : Line} {ls : List Line} {ws : List Command}
    {rest : List (List Command)} {addr : Nat} (hf : s.fault = none) (hime : s.ime = true)
    (hlines : requestedLines s = l :: ls) (hcalls : s.cpuCalls = ws :: rest)
    (hcall : callCommands ws (interruptEntry l s) = .raised addr u) : exec .checkint s = .next (takeFault addr u) := by
  obtain ⟨after, -, -, hfirst⟩ := checkLines_first hlines
  rw [hcalls, List.headD_cons, hcall, andThen_raised] at hfirst
  exact exec_checkint_raised hf (hime ▸ hfirst)

/-- Settles O50: the words before the raising one complete, each with its reply, and the fault ends the Call and with it
the CHECKINT. -/
theorem raisingCallCommandEndsTheCheckint : Obligations.RaisingCallCommandEndsTheCheckint := by
  intro s l ls before after w i rest hf hime hlines hcalls hd hi hbefore
  obtain ⟨u, hrun, rs, hlen, hrs, htrace⟩ := callCommands_raises (w := w)
    (fun v hv ⟨k, hk, hraises⟩ => hbefore v hv k hk hraises) ⟨i, hd, hi⟩ after (interruptEntry l s)
  obtain ⟨-, hcall⟩ := (callCommands_ends _ _).raised hrun
  refine ⟨_, rs, exec_checkint_firstCall_raised hf hime hlines hcalls hrun, rfl, hcall.ime, ?_, hlen, hrs, ?_⟩
  · exact hcall.calls.trans (by rw [interruptEntry, hcalls]; rfl)
  · simp [takeFault, State.setFault, State.push, htrace, interruptEntry, faultReply, outOfRange]

/-- WRITE16 at 0xFFFF: the low byte goes to IE and stays, and the high byte raises (R57). -/
theorem write16Command_top (v : U16) (s : State) :
    write16Command 0xFFFF#16 v s = .raised 0x10000 (rawStore 0xFFFF (lo8 v) s) := by
  rcases memWrite16_cases (Nat.le_refl 0xFFFF) (lo8 v) (hi8 v) s with ⟨-, h⟩ | ⟨hlt, -⟩
  · exact congrArg thenDone h
  · exact absurd hlt (Nat.lt_irrefl _)

theorem decode_write16_top (v : U16) :
    decode (0x60FFFF0000000000#64 ||| v.zeroExtend 64) = .ok (.write16 0xFFFF#16 v) := by
  have hword : wordOf 0x6#4 0 0xFFFF#16 0 v = 0x60FFFF0000000000#64 ||| v.zeroExtend 64 := by
    simp [wordOf]
  exact decode_of_encode (congrArg some hword)

/-- Settles O49: VBLANK is entered first, and its Call's first word raises with the low byte already in IE. -/
theorem callFaultEndsTheCheckint : Obligations.CallFaultEndsTheCheckint := by
  intro s v ws rest hf hm hime hcalls hie hif
  have hlines : requestedLines s = linesInPriority := by
    rw [requestedLines, hie, hif]; rfl
  have hword := callCommand_raised (decode_write16_top v) rfl (write16Command_top v (interruptEntry .vblank s))
  have hcall := exec_checkint_firstCall_raised hf hime hlines hcalls (by rw [callCommands, hword, andThen_raised])
  refine ⟨_, hcall, rfl, rfl, ?ie, ?ifl, ?trace⟩
  case ie => exact Memory.read_write_same (wf_interruptEntry .vblank hm) 0xFFFF (lo8 v)
  case ifl =>
    calc Memory.read (rawStore 0xFFFF (lo8 v) (interruptEntry .vblank s)).mem 0xFF0F
        = Memory.read (interruptEntry .vblank s).mem ifAddr := Memory.read_write_other _ _ (by decide)
      _ = withoutRequest .vblank (Memory.read s.mem 0xFF0F) := Memory.read_write_same hm _ _
      _ = 0x1E#8 := by rw [hif]; rfl
  case trace => simp [takeFault, State.setFault, State.push, interruptEntry, outOfRange, lineVector]

/-! ## One line of CHECKINT, in general -/

/-- A line does nothing, wakes, or, with IME true at entry, is entered and runs its Call (R59). -/
theorem checkLine_cases (ime0 : Bool) (l : Line) (s : State) :
    checkLine ime0 l s = .ok () s ∨ checkLine ime0 l s = .ok () (s.push .wake) ∨
    (ime0 = true ∧ checkLine ime0 l s = callCommands (s.cpuCalls.headD []) (interruptEntry l s)) := by
  rcases hl : s.requests l with _ | _
  · exact .inl (checkLine_idle ime0 hl)
  · cases ime0 with
    | false => exact .inr (.inl (checkLine_wake hl))
    | true => exact .inr (.inr ⟨rfl, checkLine_dispatch hl⟩)

/-- CHECKINT closes what its lines left with one response, its Done or its fault's. -/
theorem exec_checkint_closes {s t : State} {R : State → Prop} (h : exec .checkint s = .next t)
    (hlines : Ends (checkLines s.ime linesInPriority s) R) :
    ∃ u r, R u ∧ t.mem = u.mem ∧ t.trace = u.trace ++ [.response r] := by
  have hf := fault_none_of_exec h
  rcases hlines with ⟨_, u, hrun, hu⟩ | ⟨u, hrun, hu⟩
  · rw [exec_checkint_ok hf hrun] at h; cases h
    exact ⟨u, .done, hu, rfl, rfl⟩
  · rw [exec_checkint_raised hf hrun] at h; cases h
    exact ⟨u, _, hu, rfl, rfl⟩

/-! ## The order of the Calls (R73) -/

/-- The trace grew by outputs whose Calls are of some of the vectors `vs`, in that order. -/
def AddsCalls (vs : List U16) (s t : State) : Prop :=
  ∃ os, t.trace = s.trace ++ os ∧ (calledVectors os).Sublist vs

theorem AddsCalls.trans {vs us : List U16} {s t u : State} (h1 : AddsCalls vs s t) (h2 : AddsCalls us t u) :
    AddsCalls (vs ++ us) s u := by
  obtain ⟨os, htrace, hos⟩ := h1
  obtain ⟨qs, htrace', hqs⟩ := h2
  exact ⟨os ++ qs, by rw [htrace', htrace, List.append_assoc], by
    rw [calledVectors, List.filterMap_append]; exact hos.append hqs⟩

theorem AddsCalls.mono {vs us : List U16} {s t : State} (h : AddsCalls vs s t) (hsub : vs.Sublist us) :
    AddsCalls us s t := by
  obtain ⟨os, htrace, hos⟩ := h
  exact ⟨os, htrace, hos.trans hsub⟩

theorem AddsCalls.refl (s : State) : AddsCalls [] s s := ⟨[], by simp, .slnil⟩

/-- A Call's own commands leave replies only. -/
theorem InCall.addsCalls {s t : State} (h : InCall s t) : AddsCalls [] s t := by
  obtain ⟨rs, htrace⟩ := h.trace
  exact ⟨_, htrace, by simp [calledVectors, List.filterMap_map]⟩

theorem checkLine_addsCalls (ime0 : Bool) (l : Line) (s : State) :
    Ends (checkLine ime0 l s) (AddsCalls [lineVector l] s) := by
  rcases checkLine_cases ime0 l s with h | h | ⟨-, h⟩ <;> rw [h]
  · exact .ok ((AddsCalls.refl s).mono (List.nil_sublist _))
  · exact .ok ⟨[.wake], rfl, List.nil_sublist _⟩
  · have hentry : AddsCalls [lineVector l] s (interruptEntry l s) := ⟨_, rfl, .refl _⟩
    exact (callCommands_ends _ _).imp fun t ht => hentry.trans ht.addsCalls

theorem checkLines_addsCalls (ime0 : Bool) (ls : List Line) (s : State) :
    Ends (checkLines ime0 ls s) (AddsCalls (ls.map lineVector) s) := by
  induction ls generalizing s with
  | nil => exact .ok (.refl s)
  | cons l ls ih =>
    exact (checkLine_addsCalls ime0 l s).andThen (fun _ t h => (ih t).imp fun _ h' => h.trans h')
      fun _ h => h.mono (by simp)

/-- Settles O48: each line calls its own vector at most once, and the response is no Call. -/
theorem checkintCallsInPriorityOrder : Obligations.CheckintCallsInPriorityOrder := by
  intro s t h
  obtain ⟨u, r, hu, -, htrace⟩ := exec_checkint_closes h (checkLines_addsCalls s.ime linesInPriority s)
  have hclose : AddsCalls [] u t := ⟨[.response r], htrace, .slnil⟩
  exact hu.trans hclose

/-! ## Nothing follows a fault (R73) -/

/-- The trace grew, and by no reply of a fault. -/
def AddsNoFault (s t : State) : Prop := ∃ os : List Output, t.trace = s.trace ++ os ∧ ∀ f, .reply (.fault f) ∉ os

theorem AddsNoFault.trans {s t u : State} (h1 : AddsNoFault s t) (h2 : AddsNoFault t u) : AddsNoFault s u := by
  obtain ⟨os, htrace, hos⟩ := h1
  obtain ⟨qs, htrace', hqs⟩ := h2
  refine ⟨os ++ qs, by rw [htrace', htrace, List.append_assoc], fun f hmem => ?_⟩
  exact (List.mem_append.mp hmem).elim (hos f) (hqs f)

theorem addsNoFault_of_trace {s t : State} (h : t.trace = s.trace) : AddsNoFault s t := ⟨[], by simpa using h, nofun⟩

theorem AddsReplies.addsNoFault {n : Nat} {s t : State} (h : AddsReplies n s t) : AddsNoFault s t := by
  obtain ⟨rs, -, hrs, htrace⟩ := h
  refine ⟨_, htrace, fun f hmem => ?_⟩
  obtain ⟨r, hr, hfault⟩ := List.mem_map.mp hmem
  exact hrs r hr f (Output.reply.inj hfault)

/-- A part of a CHECKINT from `s` that completes with no fault in the trace, or raises with the fault's reply as the
last entry and no other. -/
def FaultLast (s : State) (r : Res Unit) : Prop :=
  (∃ t, r = .ok () t ∧ AddsNoFault s t) ∨
  ∃ t : State, r = .raised 0x10000 (t.push faultReply) ∧ AddsNoFault s t

theorem FaultLast.after {s t : State} {r : Res Unit} (hst : AddsNoFault s t) (h : FaultLast t r) : FaultLast s r := by
  rcases h with ⟨u, e, hu⟩ | ⟨u, e, hu⟩
  · exact .inl ⟨u, e, hst.trans hu⟩
  · exact .inr ⟨u, e, hst.trans hu⟩

/-- What comes after a part that raised does not run. -/
theorem FaultLast.andThen {s : State} {r : Res Unit} {f : Unit → State → Res Unit} (h : FaultLast s r)
    (hf : ∀ t, FaultLast t (f () t)) : FaultLast s (r.andThen f) := by
  rcases h with ⟨t, rfl, ht⟩ | ⟨t, rfl, ht⟩
  · exact .after ht (hf t)
  · exact .inr ⟨t, rfl, ht⟩

theorem callCommand_faultLast (w : Command) (s : State) : FaultLast s (callCommand w s) := by
  by_cases hw : WordRaises w
  · obtain ⟨u, hword, hu⟩ := callCommand_raises hw s
    exact .inr ⟨u, hword, addsNoFault_of_trace hu⟩
  · obtain ⟨u, hword, hu⟩ := callCommand_completes hw s
    exact .inl ⟨u, hword, hu.addsNoFault⟩

theorem callCommands_faultLast (ws : List Command) (s : State) : FaultLast s (callCommands ws s) := by
  induction ws generalizing s with
  | nil => exact .inl ⟨s, rfl, addsNoFault_of_trace rfl⟩
  | cons w ws ih => exact (callCommand_faultLast w s).andThen ih

theorem checkLine_faultLast (ime0 : Bool) (l : Line) (s : State) : FaultLast s (checkLine ime0 l s) := by
  rcases checkLine_cases ime0 l s with h | h | ⟨-, h⟩ <;> rw [h]
  · exact .inl ⟨s, rfl, addsNoFault_of_trace rfl⟩
  · exact .inl ⟨_, rfl, [.wake], rfl, by simp⟩
  · exact .after ⟨_, rfl, by simp⟩ (callCommands_faultLast _ (interruptEntry l s))

theorem checkLines_faultLast (ime0 : Bool) (ls : List Line) (s : State) : FaultLast s (checkLines ime0 ls s) := by
  induction ls generalizing s with
  | nil => exact .inl ⟨s, rfl, addsNoFault_of_trace rfl⟩
  | cons l ls ih => exact (checkLine_faultLast ime0 l s).andThen ih

/-- Settles O51: the lines complete and CHECKINT answers Done, or the fault's reply is their last output and the
response follows it. -/
theorem nothingFollowsAFaultOfACall : Obligations.NothingFollowsAFaultOfACall := by
  intro s t h
  have hf := fault_none_of_exec h
  rcases checkLines_faultLast s.ime linesInPriority s with ⟨u, hrun, os, htrace, hos⟩ | ⟨u, hrun, os, htrace, hos⟩
  · have hfault := ((checkLines_ends s.ime linesInPriority s).of_ok hrun).fault
    rw [exec_checkint_ok hf hrun] at h; cases h
    exact ⟨os, hos, .inl ⟨hfault.trans hf, by rw [State.push_trace, htrace]⟩⟩
  · rw [exec_checkint_raised hf hrun] at h; cases h
    exact ⟨os, hos, .inr ⟨_, rfl, by simp [takeFault, State.setFault, State.push, htrace, faultReply]⟩⟩

/-! ## Instructions that are neither a memory command nor CHECKINT -/

/-- RAWSTORE at the cell, or BOOTSTRAP of a table that names it. -/
def StoresDirectly (i : Instr) (a : U16) : Prop :=
  (∃ b, i = .rawstore a b) ∨ ∃ table, i = .bootstrap table ∧ a ∈ table.map (·.1)

/-- IF keeps every request it holds. -/
def KeepsRequests (s t : State) : Prop :=
  ∀ j, (Memory.read s.mem 0xFF0F).getLsbD j = true → (Memory.read t.mem 0xFF0F).getLsbD j = true

theorem keepsRequests_of_eq {s t : State} (h : Memory.read t.mem 0xFF0F = Memory.read s.mem 0xFF0F) :
    KeepsRequests s t := fun j hj => by rw [h, hj]

/-- A request ORs its bit into IF (R62). -/
theorem keepsRequests_request {s t : State} (hm : Memory.wf s.mem) (l : Line)
    (h : t.mem = Memory.write s.mem ifAddr (withRequest l (Memory.read s.mem ifAddr))) : KeepsRequests s t := by
  intro j hj
  have hcell : Memory.read t.mem 0xFF0F = withRequest l (Memory.read s.mem 0xFF0F) := by
    rw [h]; exact Memory.read_write_same hm _ _
  rw [hcell, withRequest, BitVec.getLsbD_or, hj, Bool.true_or]

/-- These instructions never fault, and of them only RAWSTORE and BOOTSTRAP can clear a request. -/
theorem exec_other_cases {i : Instr} (hnone : memoryCommand i = none) (hi : i ≠ .checkint) {s t : State}
    (h : exec i s = .next t) :
    t.fault = none ∧ (Memory.wf s.mem → ¬ StoresDirectly i 0xFF0F#16 → KeepsRequests s t) := by
  have hf := fault_none_of_exec h
  have atIf : ∀ {a : U16}, 0xFF0F = a.toNat → 0xFF0F#16 = a := fun ha => BitVec.eq_of_toNat_eq ha
  cases i with
  | read | read16 | readrange | write | write2 | write16 => cases hnone
  | checkint => exact absurd rfl hi
  | setint l => rw [exec_setint hf] at h; cases h; exact ⟨hf, fun hm _ => keepsRequests_request hm l rfl⟩
  | pressb m => rw [exec_pressb hf] at h; cases h; exact ⟨hf, fun hm _ => keepsRequests_request hm .input rfl⟩
  | pressd m => rw [exec_pressd hf] at h; cases h; exact ⟨hf, fun hm _ => keepsRequests_request hm .input rfl⟩
  | unpressb m => rw [exec_unpressb hf] at h; cases h; exact ⟨hf, fun _ _ => keepsRequests_of_eq rfl⟩
  | unpressd m => rw [exec_unpressd hf] at h; cases h; exact ⟨hf, fun _ _ => keepsRequests_of_eq rfl⟩
  | setime b => rw [exec_setime hf] at h; cases h; exact ⟨hf, fun _ _ => keepsRequests_of_eq rfl⟩
  | updatejoyp sel =>
    rw [exec_updatejoyp hf] at h; cases h
    exact ⟨hf, fun _ _ => keepsRequests_of_eq (Memory.read_write_other _ _ (by decide))⟩
  | dma v =>
    rw [exec_dma hf] at h; cases h
    exact ⟨hf, fun _ _ => keepsRequests_of_eq (read_dmaMemory_other (by omega) _ (by omega))⟩
  | rawstore a b =>
    rw [exec_rawstore hf] at h; split at h <;> cases h
    refine ⟨hf, fun _ hn => keepsRequests_of_eq (Memory.read_write_other _ _ fun ha => hn (.inl ⟨b, ?_⟩))⟩
    rw [atIf ha]
  | bootstrap table =>
    rw [exec_bootstrap hf] at h; split at h <;> cases h
    refine ⟨hf, fun _ hn => keepsRequests_of_eq (read_bootMemory_other _ fun e he ha => hn (.inr ⟨table, rfl, ?_⟩))⟩
    exact List.mem_map.mpr ⟨e, he, (atIf ha.symm).symm⟩

/-! ## The Calls a list of lines can make -/

/-- Some word of the next `n` Calls decodes to an instruction that meets `P`. -/
def NextCallsIssue (n : Nat) (s : State) (P : Instr → Prop) : Prop :=
  ∃ ws ∈ s.cpuCalls.take n, ∃ w ∈ ws, ∃ i, decode w = .ok i ∧ P i

/-- CHECKINT makes five Calls at most, one for each line. -/
theorem callsIssue_iff {s : State} {P : Instr → Prop} :
    CallsIssue s P ↔ NextCallsIssue linesInPriority.length s P := .rfl

theorem NextCallsIssue.of_first {n : Nat} {s : State} {P : Instr → Prop} {w : Command} {i : Instr}
    (hw : w ∈ s.cpuCalls.headD []) (hd : decode w = .ok i) (hi : P i) : NextCallsIssue (n + 1) s P := by
  rcases hc : s.cpuCalls with _ | ⟨ws, rest⟩ <;> rw [hc] at hw
  · cases hw
  · exact ⟨ws, by simp [hc], w, hw, i, hd, hi⟩

/-- What a line leaves of the Calls. -/
theorem NextCallsIssue.of_left {n : Nat} {s t : State} {P : Instr → Prop}
    (ht : t.cpuCalls = s.cpuCalls ∨ t.cpuCalls = s.cpuCalls.drop 1) (h : NextCallsIssue n t P) :
    NextCallsIssue (n + 1) s P := by
  obtain ⟨ws, hws, hissue⟩ := h
  exact ⟨ws, take_calls ht hws, hissue⟩

/-! ## Which forms fault (R70, R71) -/

/-- A line whose Call issues no raising form completes. -/
theorem checkLine_completes (ime0 : Bool) (l : Line) {n : Nat} {s : State}
    (hq : ¬ NextCallsIssue (n + 1) s RaisesOutOfRange) : ∃ t, checkLine ime0 l s = .ok () t := by
  rcases checkLine_cases ime0 l s with h | h | ⟨-, h⟩ <;> rw [h]
  · exact ⟨_, rfl⟩
  · exact ⟨_, rfl⟩
  · obtain ⟨u, hrun, -⟩ := callCommands_completes
      (fun w hw ⟨i, hd, hi⟩ => hq (.of_first hw hd hi)) (interruptEntry l s)
    exact ⟨u, hrun⟩

theorem checkLines_completes_of_noRaise (ime0 : Bool) {ls : List Line} {s : State}
    (hq : ¬ NextCallsIssue ls.length s RaisesOutOfRange) : ∃ t, checkLines ime0 ls s = .ok () t := by
  induction ls generalizing s with
  | nil => exact ⟨s, rfl⟩
  | cons l ls ih =>
    obtain ⟨t, hline⟩ := checkLine_completes ime0 l hq
    have hleft := (checkLine_calls ime0 l s).of_ok hline
    obtain ⟨u, hrun⟩ := ih (s := t) fun h => hq (.of_left hleft h)
    exact ⟨u, by rw [checkLines, hline, andThen_ok, hrun]⟩

/-- CHECKINT faults only through a raising form that one of its Calls issues. -/
theorem exec_checkint_fault {s t : State} (h : exec .checkint s = .next t) (ht : t.fault ≠ none) :
    t.fault = some (outOfRange 0x10000) ∧ s.ime = true ∧ CallsIssue s RaisesOutOfRange := by
  have hf := fault_none_of_exec h
  rcases checkLines_ends s.ime linesInPriority s with ⟨_, u, hrun, hu⟩ | ⟨u, hrun, -⟩
  · rw [exec_checkint_ok hf hrun] at h; cases h
    exact absurd (hu.fault.trans hf) ht
  · rw [exec_checkint_raised hf hrun] at h; cases h
    refine ⟨rfl, ?_, ?_⟩ <;> by_contra hn
    · rw [eq_false_of_ne_true hn, checkLines_wake] at hrun; cases hrun
    · obtain ⟨v, hok⟩ := checkLines_completes_of_noRaise s.ime (callsIssue_iff.not.mp hn)
      rw [hok] at hrun; cases hrun

/-- A memory command at the port faults on R70's forms only. -/
theorem exec_memoryCommand_fault {i : Instr} {act : State → Res Response} (hm : memoryCommand i = some act)
    {s t : State} (h : exec i s = .next t) (ht : t.fault ≠ none) :
    t.fault = some (outOfRange 0x10000) ∧ RaisesOutOfRange i := by
  have hf := fault_none_of_exec h
  rw [exec_memoryCommand hm hf] at h
  rcases memoryCommand_completes hm s with ⟨hi, u, hact⟩ | ⟨-, r, u, hact⟩ <;> rw [hact] at h <;> cases h
  · exact ⟨rfl, hi⟩
  · obtain ⟨-, -, -, hkeep, -⟩ := ((memoryCommand_ends hm s).of_ok hact).fields
    exact absurd (hkeep.trans hf) ht

/-- Settles O12: a memory command, CHECKINT, or an instruction that never faults. -/
theorem onlyListedFormsFault : Obligations.OnlyListedFormsFault := by
  intro i s t h ht
  rcases hm : memoryCommand i with _ | act
  · by_cases hi : i = .checkint
    · subst hi
      obtain ⟨hfault, hime, hissue⟩ := exec_checkint_fault h ht
      exact ⟨hfault, .inr ⟨rfl, hime, hissue⟩⟩
    · exact absurd (exec_other_cases hm hi h).1 ht
  · obtain ⟨hfault, hi⟩ := exec_memoryCommand_fault hm h ht
    exact ⟨hfault, .inl hi⟩

/-! ## What clears a request (R72) -/

/-- Every request IF holds stays, but those of lines whose vectors were called. -/
def KeepsUncalledRequests (s t : State) : Prop := ∃ os, t.trace = s.trace ++ os ∧
  ∀ j, (Memory.read s.mem 0xFF0F).getLsbD j = true →
    (Memory.read t.mem 0xFF0F).getLsbD j = true ∨ ∃ l, lineNumber l = j ∧ .call (lineVector l) ∈ os

theorem KeepsUncalledRequests.trans {s t u : State} (h1 : KeepsUncalledRequests s t)
    (h2 : KeepsUncalledRequests t u) : KeepsUncalledRequests s u := by
  obtain ⟨os, htrace, hos⟩ := h1
  obtain ⟨qs, htrace', hqs⟩ := h2
  refine ⟨os ++ qs, by rw [htrace', htrace, List.append_assoc], fun j hj => ?_⟩
  rcases hos j hj with ht | ⟨l, hl, hcall⟩
  · exact (hqs j ht).imp_right fun ⟨l, hl, hcall⟩ => ⟨l, hl, List.mem_append_right _ hcall⟩
  · exact .inr ⟨l, hl, List.mem_append_left _ hcall⟩

theorem keepsUncalledRequests_of_keeps {s t : State} {os : List Output} (htrace : t.trace = s.trace ++ os)
    (h : KeepsRequests s t) : KeepsUncalledRequests s t := ⟨os, htrace, fun j hj => .inl (h j hj)⟩

/-- Interrupt entry clears its own line's request, and calls the line's vector. -/
theorem keepsUncalledRequests_entry (l : Line) {s : State} (hm : Memory.wf s.mem) :
    KeepsUncalledRequests s (interruptEntry l s) := by
  refine ⟨[.wake, .call (lineVector l)], rfl, fun j hj => ?_⟩
  by_cases hjl : j = lineNumber l
  · exact .inr ⟨l, hjl.symm, by simp⟩
  · have hbit := interruptEntry_ifBit l hm (BitVec.lt_of_getLsbD hj)
    refine .inl (hbit.trans ?_)
    rw [show (Memory.read s.mem ifAddr).getLsbD j = true from hj, Bool.true_and, bne_iff_ne]
    exact hjl

theorem checkLine_keepsUncalledRequests (ime0 : Bool) (l : Line) {n : Nat} {s : State} (hm : Memory.wf s.mem)
    (hq : ¬ NextCallsIssue (n + 1) s (WriteReaches · 0xFF0F)) :
    Ends (checkLine ime0 l s) (KeepsUncalledRequests s) := by
  rcases checkLine_cases ime0 l s with h | h | ⟨-, h⟩ <;> rw [h]
  · exact .ok (keepsUncalledRequests_of_keeps (os := []) (by simp) fun _ hj => hj)
  · exact .ok (keepsUncalledRequests_of_keeps (os := [.wake]) rfl fun _ hj => hj)
  · have hcell := callCommands_keeps (x := 0xFF0F) (by decide)
      (fun w hw i hd hi => hq (.of_first hw hd hi)) (interruptEntry l s)
    refine ((callCommands_ends _ _).and hcell).imp fun t ⟨hcall, hkeep⟩ => ?_
    obtain ⟨rs, htrace⟩ := hcall.trace
    exact (keepsUncalledRequests_entry l hm).trans (keepsUncalledRequests_of_keeps htrace (keepsRequests_of_eq hkeep))

theorem checkLines_keepsUncalledRequests (ime0 : Bool) {ls : List Line} {s : State} (hm : Memory.wf s.mem)
    (hq : ¬ NextCallsIssue ls.length s (WriteReaches · 0xFF0F)) :
    Ends (checkLines ime0 ls s) (KeepsUncalledRequests s) := by
  induction ls generalizing s with
  | nil => exact .ok (keepsUncalledRequests_of_keeps (os := []) (by simp) fun _ hj => hj)
  | cons l ls ih =>
    have hline := (checkLine_keepsUncalledRequests ime0 l hm hq).and
      ((checkLine_calls ime0 l s).and (checkLine_ends ime0 l s))
    refine hline.andThen (fun _ t ⟨hkeep, hleft, hcheck⟩ => ?_) fun _ h => h.1
    exact (ih (hcheck.wf hm) fun h => hq (.of_left hleft h)).imp fun _ h => hkeep.trans h

/-- A CHECKINT that clears a request had IME true, and called the line's vector or issues a write that reaches IF. -/
theorem exec_checkint_clears {s t : State} {j : Nat} (hm : Memory.wf s.mem) (h : exec .checkint s = .next t)
    (hset : (Memory.read s.mem 0xFF0F).getLsbD j = true) (hclear : (Memory.read t.mem 0xFF0F).getLsbD j = false) :
    s.ime = true ∧ ((∃ os l, t.trace = s.trace ++ os ∧ lineNumber l = j ∧ .call (lineVector l) ∈ os) ∨
      CallsIssue s (WriteReaches · 0xFF0F)) := by
  have hf := fault_none_of_exec h
  have hime : s.ime = true := by
    by_contra hn
    have hrun := checkLines_wake linesInPriority s
    rw [← eq_false_of_ne_true hn] at hrun
    rw [exec_checkint_ok hf hrun] at h; cases h
    exact absurd hset (ne_true_of_eq_false hclear)
  refine ⟨hime, or_iff_not_imp_right.mpr fun hq => ?_⟩
  obtain ⟨u, r, ⟨os, htrace, hos⟩, hmem, hclose⟩ :=
    exec_checkint_closes h (checkLines_keepsUncalledRequests s.ime hm (callsIssue_iff.not.mp hq))
  rcases hos j hset with hu | ⟨l, hl, hcall⟩
  · rw [hmem, hu] at hclear; cases hclear
  · exact ⟨os ++ [.response r], l, by rw [hclose, htrace, List.append_assoc], hl, List.mem_append_left _ hcall⟩

/-- Settles O38: a memory command clears by a write that reaches IF, CHECKINT by a dispatch or by such a write of a
Call, and of the other instructions only RAWSTORE and BOOTSTRAP can clear. -/
theorem onlyDispatchOrAWriteClearsARequest : Obligations.OnlyDispatchOrAWriteClearsARequest := by
  intro i s t j hm h hset hclear
  have hlost : ¬ KeepsRequests s t := fun hkeep => ne_true_of_eq_false hclear (hkeep j hset)
  rcases hbody : memoryCommand i with _ | act
  · by_cases hi : i = .checkint
    · subst hi
      exact .inl ⟨rfl, exec_checkint_clears hm h hset hclear⟩
    · refine .inr (.inr (by_contra fun hn => hlost ?_))
      exact (exec_other_cases hbody hi h).2 hm hn
  · refine .inr (.inl (by_contra fun hn => hlost (keepsRequests_of_eq ?_)))
    exact exec_memoryCommand_keeps hbody h (by decide) hn

end Sys2Proof.Machine

/-! # Reset and hazards (70_reset_and_hazards.md): construction and reset (O13, O54), BOOTSTRAP and its tables (O14 to
O16), the snapshot at 0xFF00 (O34) and the worked program P4 (O46) -/

namespace Sys2Proof.Machine

/-! ## The joypad register (R87) -/

/-- Settles O34: 0xFF00 is a cell above OAM other than IF, and of that cell's writers R85 excludes BOOTSTRAP. A press or
a release is none of them. -/
theorem joypRegisterIsASnapshot : Obligations.JoypRegisterIsASnapshot := by
  intro i s t h hne
  have hw : MayWriteCell i s 0xFF00 := by
    by_contra hn
    exact hne (exec_keeps_cell h (by decide) (by decide) hn)
  rcases hw with hwrite | ⟨-, hjoyp⟩ | ⟨a, b, rfl, ha⟩ | ⟨table, -, hok, e, he, ha⟩ | hcheck
  · exact .inl hwrite
  · exact .inr (.inl hjoyp)
  · have hcell : a = 0xFF00#16 := BitVec.eq_of_toNat_eq ha
    exact .inr (.inr (.inl ⟨b, by rw [hcell]⟩))
  · exact absurd ha (bootTableOk_mem hok he).1.ne'
  · exact .inr (.inr (.inr hcheck))

/-! ## BOOTSTRAP (R84, R85) -/

theorem exec_bootstrap_ok {table : List BootEntry} (hok : bootTableOk table = true) {s : State} (hf : s.fault = none) :
    exec (.bootstrap table) s = .next (s.setMem (bootMemory table s.mem)) := by
  rw [exec_bootstrap hf, if_pos hok]

/-- Settles O14: an allowed table stores its pairs plainly, and its addresses are distinct. -/
theorem bootstrapStoresItsTable : Obligations.BootstrapStoresItsTable := fun _ s hf hm hok =>
  ⟨_, exec_bootstrap_ok hok hf, rfl, fun _ he => read_bootMemory_mem hok hm he,
    fun _ ha => read_bootMemory_other s.mem ha⟩

/-- The constraints of R85 do not look at the order of the entries. -/
theorem bootTableOk_perm {table table' : List BootEntry} (hp : table.Perm table') :
    bootTableOk table = bootTableOk table' := by
  simp only [bootTableOk, hp.all_eq, (hp.map _).nodup_iff]

/-- An allowed table's addresses are distinct, so each cell holds its own entry's byte in whatever order. -/
theorem bootMemory_perm {table table' : List BootEntry} (hok : bootTableOk table = true) (hp : table.Perm table')
    {m : Memory} (hm : Memory.wf m) : bootMemory table m = bootMemory table' m := by
  have hok' : bootTableOk table' = true := (bootTableOk_perm hp).symm.trans hok
  refine Memory.ext_read (wf_bootMemory table hm) (wf_bootMemory table' hm) fun a => ?_
  by_cases ha : ∃ e ∈ table, e.1.toNat = a
  · obtain ⟨e, he, rfl⟩ := ha
    rw [read_bootMemory_mem hok hm he, read_bootMemory_mem hok' hm (hp.mem_iff.mp he)]
  · push Not at ha
    rw [read_bootMemory_other m ha, read_bootMemory_other m fun e he => ha e (hp.mem_iff.mpr he)]

/-- Settles O15: both tables are allowed and leave the same memory; with FAULT set both are stuck. -/
theorem bootstrapOrderDoesNotMatter : Obligations.BootstrapOrderDoesNotMatter := by
  intro table table' s hm hok hp
  rcases hf : s.fault with _ | f
  · rw [exec_bootstrap_ok hok hf, exec_bootstrap_ok ((bootTableOk_perm hp).symm.trans hok) hf,
      bootMemory_perm hok hp hm]
  · rw [exec_of_fault hf, exec_of_fault hf]

/-- Settles O16: BOOTSTRAP tests the table before any entry. -/
theorem bootstrapRejectsABadTable : Obligations.BootstrapRejectsABadTable := fun table s hf hbad => by
  rw [exec_bootstrap hf table, if_neg (ne_true_of_eq_false hbad)]

/-! ## Construction and reset (R83) -/

/-- Settles O13: BOOT_TABLE is allowed, so BOOTSTRAP stores it into INIT_IMAGE plainly, and it names none of the three
kinds of cell. -/
theorem resetIsConstructionThenBootstrap : Obligations.ResetIsConstructionThenBootstrap := by
  refine ⟨exec_bootstrap_ok bootTable_ok construction_fault, ?construction, ?reset⟩
  case construction =>
    exact ⟨construction_ime, construction_btn, construction_dpad, construction_fault, fun _ ha => read_initImage ha⟩
  case reset =>
    refine ⟨reset_ime, reset_btn, reset_dpad, reset_fault,
      fun _ he => read_bootMemory_mem bootTable_ok wf_initImage he, fun _ ha hn => read_reset_other ha hn,
      fun a ha => read_reset_other (by omega) fun e he => ?_⟩
    have hentry := bootTableOk_mem bootTable_ok he
    omega

/-- Nothing has failed, and the trace is empty. -/
theorem inv_reset : Inv State.reset where
  canonical := wf_reset
  image _ ha := read_reset_neverWritten ha
  faultAddr _ hf := nomatch reset_fault.symm.trans hf
  faultAnswered _ hf := nomatch reset_fault.symm.trans hf
  refusalMarked h := by simp at h

/-- Settles O54. -/
theorem resetMeetsTheInvariant : Obligations.ResetMeetsTheInvariant := ⟨inv_reset, reset_fault, reset_refused⟩

/-! ## A push that lands on IE (R90) -/

/-- A WRITE to a plain address inside a Call. -/
theorem callCommand_write_plain {w : Command} {a v : U16} (hd : decode w = .ok (.write a v)) (ha : PlainAddr a.toNat)
    (s : State) : callCommand w s = .ok () ((rawStore a.toNat (lo8 v) s).push (.reply .done)) :=
  callCommand_ok hd rfl (by rw [writeCommand, memWrite_of_plain ha]; rfl)

/-- The state after the two pushes of P4: 0x00 onto IE, then 0x34 below it, each with its reply. -/
def afterPushOntoIe (e : State) : State :=
  (rawStore 0xFFFE 0x34#8 ((rawStore ieAddr 0x00#8 e).push (.reply .done))).push (.reply .done)

theorem callCommands_pushOntoIe (e : State) :
    callCommands [0x40FFFF0000000000#64, 0x40FFFE0000000034#64] e = .ok () (afterPushOntoIe e) := by
  have hie := callCommand_write_plain (w := 0x40FFFF0000000000#64) (a := 0xFFFF#16) (v := 0x0000#16)
    (decode_of_encode rfl) (plainAddr_u16 (by decide) (by decide) (by decide))
  have hlow := callCommand_write_plain (w := 0x40FFFE0000000034#64) (a := 0xFFFE#16) (v := 0x0034#16)
    (decode_of_encode rfl) (plainAddr_u16 (by decide) (by decide) (by decide))
  rw [callCommands, hie, andThen_ok, callCommands, hlow]
  rfl

theorem read_afterPushOntoIe {e : State} (hm : Memory.wf e.mem) (x : Nat) :
    Memory.read (afterPushOntoIe e).mem x =
      if x = 0xFFFE then 0x34#8 else if x = ieAddr then 0x00#8 else Memory.read e.mem x :=
  (read_rawStore (wf_rawStore hm (by decide) 0x00#8) 0xFFFE 0x34#8 x).trans (by rw [read_rawStore hm])

/-- With IE zero no line is enabled. -/
theorem requests_false_of_ie {s : State} (h : Memory.read s.mem ieAddr = 0#8) (l : Line) : s.requests l = false :=
  requests_false_of_and (by rw [show Memory.read s.mem 0xFFFF = 0#8 from h, BitVec.zero_and, BitVec.zero_and]) l

/-- Settles O46: VBLANK is entered, its Call leaves IE zero, and no later line is then requested. -/
theorem pushOntoIeStopsLaterLines : Obligations.PushOntoIeStopsLaterLines := by
  intro s rest hf hm hime hcalls hie hif
  have hlines : requestedLines s = [.vblank, .timer] := by
    rw [requestedLines, hie, hif]; rfl
  have hread := read_afterPushOntoIe (wf_interruptEntry .vblank hm)
  obtain ⟨after, -, -, hrun⟩ := checkLines_first hlines
  rw [hcalls, List.headD_cons, callCommands_pushOntoIe, andThen_ok,
    checkLines_idle true fun l _ => requests_false_of_ie (hread ieAddr) l, ← hime] at hrun
  refine ⟨_, exec_checkint_ok hf hrun, ?ifl, hread 0xFFFF, hread 0xFFFE, rfl, ?calls, ?trace⟩
  case ifl =>
    calc Memory.read (afterPushOntoIe (interruptEntry .vblank s)).mem 0xFF0F
        = Memory.read (interruptEntry .vblank s).mem ifAddr := hread 0xFF0F
      _ = withoutRequest .vblank (Memory.read s.mem 0xFF0F) := Memory.read_write_same hm _ _
      _ = 0x04#8 := by rw [hif]; rfl
  case calls => exact congrArg (List.drop 1) hcalls
  case trace => simp [afterPushOntoIe, interruptEntry, lineVector]

end Sys2Proof.Machine

/-! # No command waiting: the model's choice of log 2 (O10) -/

namespace Sys2Proof.Machine

theorem takeCommand_of_empty {s : State} (hp : s.port = []) : takeCommand s = .idle := by
  rw [takeCommand, hp]

/-- Settles O10: a block without a fault accepts, and an empty port offers no command. -/
theorem idleStepChangesNothing : Obligations.IdleStepChangesNothing := by
  intro s hf hp
  rw [step, accept_of_none hf, takeCommand_of_empty hp]

end Sys2Proof.Machine
